-- ==== Sys2Proof/Word.lean ====
section
/-! DEFINITION. The 64-bit word (`00_scope.md` R7, R14), β, and the names of the three limb banks (R18). -/

namespace Sys2Proof

/-- A limb, a beat or a register: one 64-bit unsigned word (R7, R14). -/
abbrev Word := BitVec 64

/-- β = 2^64, the base of the limb representation (R7). -/
abbrev beta : Nat := 18446744073709551616

/-- The largest word, β − 1, the spec's `MAX` (R14). -/
abbrev maxWord : Word := 0xFFFFFFFFFFFFFFFF

/-- The three limb arrays inside the block (R18, `10_state.md` R20). -/
inductive Bank where
  /-- First operand, N limbs (R21). -/
  | A
  /-- Second operand, N limbs (R22). -/
  | B
  /-- Product buffer, 2N limbs (R24). -/
  | P
  deriving DecidableEq, Repr

end Sys2Proof
end

