-- ==== Sys2Proof/Config.lean ====
section
/-! DEFINITION. What the spec leaves to the builder of a block, and the free values: `92_eei_decisions.md` says the
open parameters are N (D3) and `reset_limbs` (D18); P after ACC_OVERFLOW is a draw (`60_exceptions.md` R205). -/

namespace Sys2Proof

/-- Largest N that a block can be built with (`00_scope.md` R8). -/
def Config.maxLimbs : Nat := 32768

/-- DESIGN CHOICE (log 1): the N of the block that `State.reset` describes. The spec leaves N open (R8, D3); every
machine definition takes N from the state, and the statements hold for every N. -/
def Config.limbs : Nat := 2

/-- Free value (log 2): the spec's open parameter `reset_limbs` (`70_reset_and_hazards.md` R231), the content of limb
`i` of a bank after reset, about which nothing is assumed. The first argument numbers the draws of a run, since the
content need not be the same after two resets. -/
opaque Config.resetLimb : Nat → Bank → Nat → Word

/-- Free value (log 3): limb `k` of bank P after an `ACC_OVERFLOW` fault, unspecified (`42_product_accumulator.md`
R124, `60_exceptions.md` R205). The first argument numbers the draws of a run. -/
opaque Config.overflowLimb : Nat → Nat → Word

end Sys2Proof
end

