-- ==== Sys2Proof/Syntax.lean ====
section
/-! DEFINITION. The thirteen commands of `30_encoding.md` R73 with their operands (R72, R74), and the request packet
that carries one (R70). -/

namespace Sys2Proof

/-- A command with its operands. An index is the unsigned integer of the header's `idx` field (R74); `WellFormed.lean`
bounds it by the field's 16 bits. Data beats are whole words, in the order of R72. -/
inductive Instr where
  /-- WMUL a, b: widening multiply (`40_widening_multiplier.md` R101). -/
  | wmul (a b : Word)
  /-- ADC a, b, cin: add with carry (`41_carry_chain_adder.md` R112). -/
  | adc (a b : Word) (cin : Bool)
  /-- ZERO: clear bank P (`42_product_accumulator.md` R120). -/
  | zero
  /-- ACC off, lo, hi: fold a partial product into bank P (R121). -/
  | acc (off : Nat) (lo hi : Word)
  /-- MULS: schoolbook multiplication (`43_schoolbook_multiplier.md` R140). -/
  | muls
  /-- MULF: four-product multiplication (`44_fixed_four_product_unit.md` R160). -/
  | mulf
  /-- WRA i, v (`45_host_access.md` R180). -/
  | wra (i : Nat) (v : Word)
  /-- WRB i, v (R181). -/
  | wrb (i : Nat) (v : Word)
  /-- WRP k, v (R182). -/
  | wrp (k : Nat) (v : Word)
  /-- RDA i (R183). -/
  | rda (i : Nat)
  /-- RDB i (R184). -/
  | rdb (i : Nat)
  /-- RDP k (R185). -/
  | rdp (k : Nat)
  /-- RDS r: read a status register (R186). -/
  | rds (r : Nat)
  deriving DecidableEq, Repr

/-- The mnemonics of the opcode table (R73), one a row. -/
inductive Mnemonic where
  | wmul | adc | zero | acc | muls | mulf | wra | wrb | wrp | rda | rdb | rdp | rds
  deriving DecidableEq, Repr

/-- The six formats of R72. -/
inductive Format where
  | Z | I | W | M | C | A
  deriving DecidableEq, Repr

/-- A request packet: one header beat and the data beats that follow it (R70). The framing of the port tells how many
there are, so any number can arrive. -/
structure Request where
  header : Word
  data : List Word
  deriving DecidableEq, Repr

end Sys2Proof
end

