-- ==== Sys2Proof/Machine/State.lean ====
section
/-! DEFINITION. The architectural state (`10_state.md` R20), the packets on the port (`30_encoding.md` R70, R76), the
state after reset (R34), and the reasons a step could stop. -/

namespace Sys2Proof.Machine

/-- A response packet: the status code and the result beats (R70, R76). -/
structure Response where
  code : BitVec 8
  results : List Word
  deriving DecidableEq, Repr

/-- What the host can do to the block (`00_scope.md` R11): send a request, or apply reset. -/
inductive Input where
  /-- A request packet on the command port (R70). -/
  | request (r : Request)
  /-- The reset input (`70_reset_and_hazards.md` R230): between commands (`none`), or after the block accepted a
  request and before it responded (`some`), which abandons that command (R232). -/
  | reset (abandoned : Option Request)
  deriving DecidableEq, Repr

/-- The state of the block. The fields `a b p cause fhdr` are the spec's record (R20), which is exact (R33); `n` is the
construction parameter N (R8, log 1); `draws`, `inbox` and `sent` are the model's own (logs 3, 4, 5). -/
structure State where
  /-- N, limbs per operand: fixed when the block is built (R8). -/
  n : Nat
  /-- Bank A, N limbs, index 0 least significant (R21). -/
  a : List Word
  /-- Bank B, N limbs (R22). -/
  b : List Word
  /-- Bank P, 2N limbs (R24). -/
  p : List Word
  /-- CAUSE: 0, or the cause of the first fault since reset (R30). -/
  cause : BitVec 8
  /-- FHDR: the header of the command that faulted (R31). -/
  fhdr : Word
  /-- The model's own: how many draws of free values the run has made. -/
  draws : Nat
  /-- The model's own: the inputs the host will present, first first. -/
  inbox : List Input
  /-- The model's own: the responses sent so far, oldest first; what the host observes (R13). -/
  sent : List Response
  deriving DecidableEq, Repr

/-- The reasons a step could stop with a fault: none. Every fault the spec gives is a next state with `CAUSE` written
(`60_exceptions.md` R205), and there is no state in which the block is stuck (`70_reset_and_hazards.md` R239), so this
type has no constructor and no step can end in one. -/
inductive Fault where
  deriving DecidableEq, Repr

/-- The reasons a step could refuse. -/
inductive Refusal where
  /-- An instruction without a meaning, rejected by name in `exec`. No arm of `exec` raises it: all thirteen commands
  have their meaning. Safe: it would stop the model where the hardware goes on. -/
  | notModelled (mnemonic : String)
  deriving DecidableEq, Repr

/-- The block built for `n` limbs per operand, right after reset, when limb `i` of bank `x` holds `limbs x i`: CAUSE and
FHDR are 0 and the limbs are `reset_limbs` (R34, `70_reset_and_hazards.md` R230, R231). -/
def State.powerOn (n : Nat) (limbs : Bank → Nat → Word) : State where
  n := n
  a := (List.range n).map (limbs .A)
  b := (List.range n).map (limbs .B)
  p := (List.range (2 * n)).map (limbs .P)
  cause := 0#8
  fhdr := 0#64
  draws := 1
  inbox := []
  sent := []

/-- The machine right after reset (R34, R230): `reset_limbs` is the free value `Config.resetLimb` (log 2), and N is
`Config.limbs` (log 1). -/
def State.reset : State := State.powerOn Config.limbs (Config.resetLimb 0)

end Sys2Proof.Machine
end

