-- ==== Sys2Proof/Machine/Flags.lean ====
section
/-! DEFINITION. The carry, the block's only flag (`10_state.md` R28): `adc64` and the carry chain
(`41_carry_chain_adder.md`). The carry is a value passed from step to step and never part of the state (R27). -/

namespace Sys2Proof.Machine

/-- `adc64(a, b, carryIn)` = (sum, carryOut): t = a + b + carryIn, sum = t mod β, carryOut = t div β (R110). -/
def adc64 (a b : Word) (carryIn : Bool) : Word × Bool :=
  (BitVec.ofNat 64 (a.toNat + b.toNat + carryIn.toNat), decide (beta ≤ a.toNat + b.toNat + carryIn.toNat))

/-- The carry chain of R111: limb by limb from the least significant, each carryOut the next carryIn. The chain is as
long as the shorter vector. -/
def carryChain : List Word → List Word → Bool → List Word × Bool
  | x :: xs, y :: ys, c =>
    ((adc64 x y c).1 :: (carryChain xs ys (adc64 x y c).2).1, (carryChain xs ys (adc64 x y c).2).2)
  | _, _, c => ([], c)

end Sys2Proof.Machine
end

