-- ==== Sys2Proof/WellFormed.lean ====
section
/-! DEFINITION. Which terms of `Instr` a request packet can carry: the index fits the 16-bit field `idx`
(`30_encoding.md` R71). The other operands are whole words or one bit, which their types say. Whether an index is in
the range of its space is not asked here: that is the fault CV_INDEX, found after decoding (R74). -/

namespace Sys2Proof

/-- The index fits `idx`, bits 15:0 of the header (R71). -/
def indexFits (i : Nat) : Bool := decide (i < 65536)

/-- The instruction can be encoded (R71, R72). -/
def Instr.wellFormed : Instr → Bool
  | .wmul _ _ => true
  | .adc _ _ _ => true
  | .zero => true
  | .acc off _ _ => indexFits off
  | .muls => true
  | .mulf => true
  | .wra i _ => indexFits i
  | .wrb i _ => indexFits i
  | .wrp k _ => indexFits k
  | .rda i => indexFits i
  | .rdb i => indexFits i
  | .rdp k => indexFits k
  | .rds r => indexFits r

end Sys2Proof
end

