-- ==== Sys2Proof/Decode.lean ====
section
/-! DEFINITION. The opcode table of `30_encoding.md` R73, the decoder (R74, R75, R77, R78), the encoder (R71, R72),
and the numbering of an instruction's bits that `spec/opcode_table.json` uses. -/

namespace Sys2Proof

/-- How many data beats follow the header (R72). -/
def Format.dataBeats : Format → Nat
  | .Z => 0
  | .I => 0
  | .W => 1
  | .M => 2
  | .C => 2
  | .A => 2

/-- A row of the opcode map: a header selects it iff `header AND mask = pattern` (R73). -/
structure Row where
  op : Mnemonic
  format : Format
  pattern : Word
  mask : Word
  deriving DecidableEq, Repr

/-- The opcode map, in the order of R73. -/
def opcodeTable : List Row :=
  [ ⟨.wmul, .M, 0x0100000000000000, 0xFFFFFFFFFFFFFFFF⟩,
    ⟨.adc,  .C, 0x0200000000000000, 0xFFFFFFFFFFFFFFFE⟩,
    ⟨.zero, .Z, 0x0300000000000000, 0xFFFFFFFFFFFFFFFF⟩,
    ⟨.acc,  .A, 0x0400000000000000, 0xFFFFFFFFFFFF0000⟩,
    ⟨.muls, .Z, 0x0500000000000000, 0xFFFFFFFFFFFFFFFF⟩,
    ⟨.mulf, .Z, 0x0600000000000000, 0xFFFFFFFFFFFFFFFF⟩,
    ⟨.wra,  .W, 0x1000000000000000, 0xFFFFFFFFFFFF0000⟩,
    ⟨.wrb,  .W, 0x1100000000000000, 0xFFFFFFFFFFFF0000⟩,
    ⟨.wrp,  .W, 0x1200000000000000, 0xFFFFFFFFFFFF0000⟩,
    ⟨.rda,  .I, 0x1400000000000000, 0xFFFFFFFFFFFF0000⟩,
    ⟨.rdb,  .I, 0x1500000000000000, 0xFFFFFFFFFFFF0000⟩,
    ⟨.rdp,  .I, 0x1600000000000000, 0xFFFFFFFFFFFF0000⟩,
    ⟨.rds,  .I, 0x1800000000000000, 0xFFFFFFFFFFFF0000⟩ ]

/-- The header selects the row (R73). -/
def Row.selects (r : Row) (header : Word) : Bool := header &&& r.mask == r.pattern

/-- The row a header selects, or none: "no command" (R75). -/
def selectRow (header : Word) : Option Row := opcodeTable.find? (·.selects header)

/-- The `opc` field, bits 63:56 (R71). -/
def opcField (header : Word) : BitVec 8 := header.extractLsb' 56 8

/-- The reserved field `rsv0`, bits 55:16 (R71). -/
def rsvField (header : Word) : BitVec 40 := header.extractLsb' 16 40

/-- The `idx` field, bits 15:0, as the unsigned integer it is (R71, R74). -/
def idxField (header : Word) : Nat := (header.extractLsb' 0 16).toNat

/-- `cin` of format C, bit 0 of the header (R74). -/
def cinField (header : Word) : Bool := header.getLsbD 0

/-- A command without data beats (formats Z and I, R72). -/
def noBeats (i : Instr) : List Word → Option Instr
  | [] => some i
  | _ => none

/-- A command with one data beat `v` (format W, R72). -/
def oneBeat (f : Word → Instr) : List Word → Option Instr
  | [v] => some (f v)
  | _ => none

/-- A command with two data beats (formats M, C and A, R72), the first beat first. -/
def twoBeats (f : Word → Word → Instr) : List Word → Option Instr
  | [x, y] => some (f x y)
  | _ => none

/-- The operands of a command, taken from the header and the data beats (R72, R74); none when the number of data beats
is not the one the format requires (R78). -/
def assemble (op : Mnemonic) (header : Word) (data : List Word) : Option Instr :=
  match op with
  | .wmul => twoBeats (fun a b => .wmul a b) data
  | .adc => twoBeats (fun a b => .adc a b (cinField header)) data
  | .zero => noBeats .zero data
  | .acc => twoBeats (fun lo hi => .acc (idxField header) lo hi) data
  | .muls => noBeats .muls data
  | .mulf => noBeats .mulf data
  | .wra => oneBeat (fun v => .wra (idxField header) v) data
  | .wrb => oneBeat (fun v => .wrb (idxField header) v) data
  | .wrp => oneBeat (fun v => .wrp (idxField header) v) data
  | .rda => noBeats (.rda (idxField header)) data
  | .rdb => noBeats (.rdb (idxField header)) data
  | .rdp => noBeats (.rdp (idxField header)) data
  | .rds => noBeats (.rds (idxField header)) data

/-- Why a request carries no command. -/
inductive DecodeError where
  /-- The header selects no row: the fault `ILLEGAL` (R77). -/
  | illegal
  /-- The header selects a row and the number of data beats is not its format's: the fault `CV_LENGTH` (R78). -/
  | wrongLength
  deriving DecidableEq, Repr

/-- The decoder: total, and the header is judged before the number of data beats (R75, R78; `60_exceptions.md` R204
steps 2 and 3). -/
def decode (r : Request) : Except DecodeError Instr :=
  match selectRow r.header with
  | none => .error .illegal
  | some row =>
    match assemble row.op r.header r.data with
    | none => .error .wrongLength
    | some i => .ok i

/-- A header beat from its fields, `rsv0` zero (R71). -/
def headerOf (opc : BitVec 8) (idx : Nat) : Word := opc ++ ((0 : BitVec 40) ++ BitVec.ofNat 16 idx)

/-- The header beat of an instruction: its `opc` (R73) and its use of `idx` (R72). -/
def header : Instr → Word
  | .wmul _ _ => headerOf 0x01 0
  | .adc _ _ cin => headerOf 0x02 cin.toNat
  | .zero => headerOf 0x03 0
  | .acc off _ _ => headerOf 0x04 off
  | .muls => headerOf 0x05 0
  | .mulf => headerOf 0x06 0
  | .wra i _ => headerOf 0x10 i
  | .wrb i _ => headerOf 0x11 i
  | .wrp k _ => headerOf 0x12 k
  | .rda i => headerOf 0x14 i
  | .rdb i => headerOf 0x15 i
  | .rdp k => headerOf 0x16 k
  | .rds r => headerOf 0x18 r

/-- The data beats of an instruction, in the order of R72. -/
def dataBeats : Instr → List Word
  | .wmul a b => [a, b]
  | .adc a b _ => [a, b]
  | .zero => []
  | .acc _ lo hi => [lo, hi]
  | .muls => []
  | .mulf => []
  | .wra _ v => [v]
  | .wrb _ v => [v]
  | .wrp _ v => [v]
  | .rda _ => []
  | .rdb _ => []
  | .rdp _ => []
  | .rds _ => []

/-- The encoder: the request packet of a well-formed instruction (R70 to R74). -/
def encode (i : Instr) : Request := ⟨header i, dataBeats i⟩

/-- DESIGN CHOICE (log 8): the request whose bits are `w`, numbered as `spec/opcode_table.json` numbers them. The header
is bits 63:0 and data beat k is the 64 bits from 64·(k+1) up; every bit from `nbits` up is 0. The framing of a packet is
no bit of it, so the request carries the number of data beats that its header's format requires (R72), none where the
header selects no row. -/
def tableRequest (nbits w : Nat) : Request :=
  let bits := w % 2 ^ nbits
  let hdr : Word := BitVec.ofNat 64 bits
  let beats := match selectRow hdr with
    | none => 0
    | some row => row.format.dataBeats
  ⟨hdr, (List.range beats).map fun k => BitVec.ofNat 64 (bits >>> (64 * (k + 1)))⟩

/-- The instruction the decoder reads from the bits `w` (see `tableRequest`); none where it refuses. -/
def decodeTableWord (nbits w : Nat) : Option Instr :=
  match decode (tableRequest nbits w) with
  | .ok i => some i
  | .error _ => none

end Sys2Proof
end

