-- ==== Sys2Proof/Machine/Operands.lean ====
section
/-! DEFINITION. Limb vectors and their value (`00_scope.md` R15), the codes of the faults (`60_exceptions.md` R200), and
the check of each operand form against the space it addresses (R201, R204 step 4). -/

namespace Sys2Proof.Machine

/-- `val(X) = Σ X[i]·β^i`, index 0 least significant (R15). -/
def val : List Word → Nat
  | [] => 0
  | x :: xs => x.toNat + beta * val xs

/-- `limb_i(v) = (v div β^i) mod β` (`30_encoding.md` R80). -/
def limbOf (i v : Nat) : Word := BitVec.ofNat 64 (v / beta ^ i)

/-- The causes a fault can have (R200): those that can stand in CAUSE. -/
inductive Cause where
  | illegal | cvLength | cvIndex | cvWidth | accOverflow
  deriving DecidableEq, Repr

/-- The number of a cause, in CAUSE and in a response (R200). -/
def causeCode : Cause → BitVec 8
  | .illegal => 0x01
  | .cvLength => 0x02
  | .cvIndex => 0x03
  | .cvWidth => 0x04
  | .accOverflow => 0x05

/-- The status code `OK` (R200). -/
def okCode : BitVec 8 := 0x00

/-- The status code `REFUSED`, a response only (R200). -/
def refusedCode : BitVec 8 := 0x06

/-- A limb of A or B: CV_INDEX if i >= N (R201). -/
def checkOperandLimb (n i : Nat) : Option Cause := if i < n then none else some .cvIndex

/-- A limb of P: CV_INDEX if k >= 2N (R201). -/
def checkProductLimb (n k : Nat) : Option Cause := if k < 2 * n then none else some .cvIndex

/-- An offset of ACC: CV_INDEX if off > 2N − 2 (`42_product_accumulator.md` R121), over the integers. -/
def checkOffset (n off : Nat) : Option Cause := if off + 2 ≤ 2 * n then none else some .cvIndex

/-- A status register number: CV_INDEX if r > 2 (R201; `10_state.md` R29). -/
def checkRegister (r : Nat) : Option Cause := if r ≤ 2 then none else some .cvIndex

/-- MULF: CV_WIDTH if N is not 2 (R201; `44_fixed_four_product_unit.md` R160). -/
def checkWidth (n : Nat) : Option Cause := if n = 2 then none else some .cvWidth

end Sys2Proof.Machine
end

