-- ==== Sys2Proof/Machine/Ops.lean ====
section
/-! DEFINITION. The named operations that every command is built from: reading and writing a limb, the status registers,
sending a response, fault entry and its only way back, reset, and the order of the checks (`60_exceptions.md` R204). -/

namespace Sys2Proof.Machine

/-- The limbs of a bank (R20). -/
def State.bank (s : State) : Bank → List Word
  | .A => s.a
  | .B => s.b
  | .P => s.p

/-- Read one limb (`20_memory.md` R50, R57). An index outside the list, which no run reaches, reads 0 (log 10). -/
def State.limb (s : State) (x : Bank) (i : Nat) : Word := (s.bank x).getD i 0#64

/-- Write one limb (R50, R57); the other limbs and banks keep their values. -/
def State.setLimb (s : State) (x : Bank) (i : Nat) (v : Word) : State :=
  match x with
  | .A => { s with a := s.a.set i v }
  | .B => { s with b := s.b.set i v }
  | .P => { s with p := s.p.set i v }

/-- Write every limb of bank P. -/
def State.setProduct (s : State) (p : List Word) : State := { s with p := p }

/-- A bank P of 2N limbs, all 0 (`42_product_accumulator.md` R120). -/
def zeroedProduct (n : Nat) : List Word := List.replicate (2 * n) 0#64

/-- STATUS: CAUSE in bits 7:0, the rest 0 (`10_state.md` R30). -/
def statusWord (cause : BitVec 8) : Word := cause.setWidth 64

/-- CONFIG: N in bits 15:0, W = 64 in bits 23:16, FFP in bit 24, the rest 0 (R30). -/
def configWord (n : Nat) : Word :=
  (0 : BitVec 39) ++ (BitVec.ofBool (decide (n = 2)) ++ ((64 : BitVec 8) ++ BitVec.ofNat 16 n))

/-- The status register of a number (R29): 0 STATUS, 1 CONFIG, 2 FHDR; no other number is read (`checkRegister`). -/
def State.register (s : State) (r : Nat) : Word :=
  if r = 0 then statusWord s.cause else if r = 1 then configWord s.n else s.fhdr

/-- The beats of a response packet: the status beat, then the results (`30_encoding.md` R76). -/
def Response.beats (r : Response) : List Word := r.code.setWidth 64 :: r.results

/-- `respond(code, results)`: send the response packet, which ends the command (R76). -/
def State.respond (s : State) (code : BitVec 8) (results : List Word) : State :=
  { s with sent := s.sent ++ [⟨code, results⟩] }

/-- The command completed: `respond(OK, results)`. -/
def State.ok (s : State) (results : List Word) : State := s.respond okCode results

/-- The fault state is CAUSE ≠ 0 (`60_exceptions.md` R206). -/
def State.faulted (s : State) : Bool := s.cause != 0#8

/-- A request refused in the fault state: the response REFUSED and no other change (R206). -/
def State.refuse (s : State) : State := s.respond refusedCode []

/-- Bank P becomes unspecified: every limb a free value (`42_product_accumulator.md` R124; log 3). -/
def State.drawProduct (s : State) : State :=
  { s with p := (List.range (2 * s.n)).map (Config.overflowLimb s.draws), draws := s.draws + 1 }

/-- Fault entry, `raise Fault(cause)` (`60_exceptions.md` R205): CAUSE and FHDR are written, P is drawn if the cause is
ACC_OVERFLOW, and the code is sent with no result beats. -/
def State.raiseFault (s : State) (c : Cause) (hdr : Word) : State :=
  let t : State := if c = .accOverflow then s.drawProduct else s
  { t with cause := causeCode c, fhdr := hdr }.respond (causeCode c) []

/-- The reset input (`70_reset_and_hazards.md` R230), the only exit from the fault state (`60_exceptions.md` R207):
CAUSE and FHDR are 0 and every limb is `reset_limbs`, a fresh free value (R231; log 2). N is hardwired. -/
def State.resetBlock (s : State) : State :=
  { s with
    a := (List.range s.n).map (Config.resetLimb s.draws .A)
    b := (List.range s.n).map (Config.resetLimb s.draws .B)
    p := (List.range (2 * s.n)).map (Config.resetLimb s.draws .P)
    cause := 0#8
    fhdr := 0#64
    draws := s.draws + 1 }

/-- Steps 2 and 3 of R204: a request that carries no command raises its fault, unless the block is in the fault state,
where it is refused (step 1). -/
def State.reject (s : State) (c : Cause) (hdr : Word) : State :=
  if s.faulted then s.refuse else s.raiseFault c hdr

/-- Steps 1, 4 and 5 of R204 for a command whose header is `hdr`: refused in the fault state; else the operand check;
else the command's own rule. -/
def State.commence (s : State) (hdr : Word) (check : Option Cause) (run : State → State) : State :=
  if s.faulted then s.refuse
  else match check with
    | some c => s.raiseFault c hdr
    | none => run s

/-- The step's answer: every command ends in a next state (`70_reset_and_hazards.md` R239). -/
abbrev Result := Host.Outcome State Fault Refusal

end Sys2Proof.Machine
end

