-- ==== Sys2Proof/Machine/CarryChainAdder.lean ====
section
/-! DEFINITION. The carry_chain_adder unit (`41_carry_chain_adder.md`): the command ADC over `adc64`. -/

namespace Sys2Proof.Machine

/-- `zext_64` of one bit (`00_scope.md` R14). -/
def carryWord (c : Bool) : Word := BitVec.ofNat 64 c.toNat

/-- ADC (R112): the carry-in comes from the request and the carry-out goes to the response; none is kept. -/
def execAdc (a b : Word) (cin : Bool) (s : State) : Result :=
  .next (s.commence (header (.adc a b cin)) none fun s => s.ok [(adc64 a b cin).1, carryWord (adc64 a b cin).2])

end Sys2Proof.Machine
end

