-- ==== Sys2Proof/Machine/WideningMultiplier.lean ====
section
/-! DEFINITION. The widening_multiplier unit (`40_widening_multiplier.md`): `wmul64` and the command WMUL. -/

namespace Sys2Proof.Machine

/-- `wmul64(a, b)` = (lo, hi): lo = (a·b) mod β, hi = (a·b) div β (R100). -/
def wmul64 (a b : Word) : Word × Word :=
  (BitVec.ofNat 64 (a.toNat * b.toNat), BitVec.ofNat 64 (a.toNat * b.toNat / beta))

/-- WMUL (R101). -/
def execWmul (a b : Word) (s : State) : Result :=
  .next (s.commence (header (.wmul a b)) none fun s => s.ok [(wmul64 a b).1, (wmul64 a b).2])

end Sys2Proof.Machine
end

