-- ==== Sys2Proof/Machine/FixedFourProductUnit.lean ====
section
/-! DEFINITION. The fixed_four_product_unit (`44_fixed_four_product_unit.md`): the command MULF. -/

namespace Sys2Proof.Machine

/-- The four limbs of P that `fixed_four_product()` leaves, from limbs 0 and 1 of each operand (R161). The zeroing
writes come first and every limb is then overwritten, so they are left out, as R164 allows (log 12); the last carry d3
is dropped: R162 proves it 0. -/
def fixedFourProduct (a0 a1 b0 b1 : Word) : List Word :=
  let low := wmul64 a0 b0
  let cross1 := wmul64 a0 b1
  let cross2 := wmul64 a1 b0
  let high := wmul64 a1 b1
  let x0 := adc64 cross1.1 cross2.1 false
  let x1 := adc64 cross1.2 cross2.2 x0.2
  let p1 := adc64 low.2 x0.1 false
  let p2 := adc64 high.1 x1.1 p1.2
  let p3 := adc64 high.2 (carryWord x1.2) p2.2
  [low.1, p1.1, p2.1, p3.1]

/-- MULF (R160): CV_WIDTH unless N = 2, before any limb is read or written. -/
def execMulf (s : State) : Result :=
  .next (s.commence (header .mulf) (checkWidth s.n) fun s =>
    (s.setProduct (fixedFourProduct (s.limb .A 0) (s.limb .A 1) (s.limb .B 0) (s.limb .B 1))).ok [])

end Sys2Proof.Machine
end

