-- ==== Sys2Proof/Machine/HostAccess.lean ====
section
/-! DEFINITION. Host access (`45_host_access.md`): WRA, WRB, WRP, RDA, RDB, RDP, RDS. The only addressing mode is the
direct index (R187). -/

namespace Sys2Proof.Machine

/-- WRA (R180). -/
def execWra (i : Nat) (v : Word) (s : State) : Result :=
  .next (s.commence (header (.wra i v)) (checkOperandLimb s.n i) fun s => (s.setLimb .A i v).ok [])

/-- WRB (R181). -/
def execWrb (i : Nat) (v : Word) (s : State) : Result :=
  .next (s.commence (header (.wrb i v)) (checkOperandLimb s.n i) fun s => (s.setLimb .B i v).ok [])

/-- WRP (R182). -/
def execWrp (k : Nat) (v : Word) (s : State) : Result :=
  .next (s.commence (header (.wrp k v)) (checkProductLimb s.n k) fun s => (s.setLimb .P k v).ok [])

/-- RDA (R183). -/
def execRda (i : Nat) (s : State) : Result :=
  .next (s.commence (header (.rda i)) (checkOperandLimb s.n i) fun s => s.ok [s.limb .A i])

/-- RDB (R184). -/
def execRdb (i : Nat) (s : State) : Result :=
  .next (s.commence (header (.rdb i)) (checkOperandLimb s.n i) fun s => s.ok [s.limb .B i])

/-- RDP (R185). -/
def execRdp (k : Nat) (s : State) : Result :=
  .next (s.commence (header (.rdp k)) (checkProductLimb s.n k) fun s => s.ok [s.limb .P k])

/-- RDS (R186), the one command served in the fault state: with r <= 2 it answers there too (`60_exceptions.md` R204
step 1); with r > 2 it is refused there and raises CV_INDEX otherwise. -/
def execRds (r : Nat) (s : State) : Result :=
  .next (match checkRegister r with
    | none => s.ok [s.register r]
    | some c => s.reject c (header (.rds r)))

end Sys2Proof.Machine
end

