-- ==== Sys2Proof/Machine/ProductAccumulator.lean ====
section
/-! DEFINITION. The product_accumulator unit (`42_product_accumulator.md`): `accumulate` and the commands ZERO, ACC. -/

namespace Sys2Proof.Machine

/-- One step `(s, c) = adc64(P[k], v, cin); P[k] <- s` of a chain through bank P: the new bank and the carry (R122). -/
def addInto (p : List Word) (k : Nat) (v : Word) (cin : Bool) : List Word × Bool :=
  (p.set k (adc64 (p.getD k 0#64) v cin).1, (adc64 (p.getD k 0#64) v cin).2)

/-- The ripple of R122: while the carry is 1 and limbs are left, add it into limb `k`. `left` is the number of limbs
from `k` to the end of the bank. -/
def ripple : (left k : Nat) → (c : Bool) → (p : List Word) → List Word × Bool
  | 0, _, c, p => (p, c)
  | _ + 1, _, false, p => (p, false)
  | left + 1, k, true, p => ripple left (k + 1) (addInto p k 0#64 true).2 (addInto p k 0#64 true).1

/-- The procedure `accumulate(off, lo, hi)` on a bank of 2N limbs (R122): `lo` into limb `off`, `hi` and the carry into
limb `off+1`, then the ripple. Answers the bank and the last carry. -/
def accumulate (n off : Nat) (lo hi : Word) (p : List Word) : List Word × Bool :=
  let x := addInto p off lo false
  let y := addInto x.1 (off + 1) hi x.2
  ripple (2 * n - (off + 2)) (off + 2) y.2 y.1

/-- ZERO (R120). -/
def execZero (s : State) : Result :=
  .next (s.commence (header .zero) none fun s => (s.setProduct (zeroedProduct s.n)).ok [])

/-- ACC (R121): the offset is checked before any limb is touched; a carry left at the end of the bank is the fault
ACC_OVERFLOW (R124; `60_exceptions.md` R202), never a wrapped sum. -/
def execAcc (off : Nat) (lo hi : Word) (s : State) : Result :=
  .next (s.commence (header (.acc off lo hi)) (checkOffset s.n off) fun s =>
    if (accumulate s.n off lo hi s.p).2 then s.raiseFault .accOverflow (header (.acc off lo hi))
    else (s.setProduct (accumulate s.n off lo hi s.p).1).ok [])

end Sys2Proof.Machine
end

