-- ==== Sys2Proof/Machine/SchoolbookMultiplier.lean ====
section
/-! DEFINITION. The schoolbook_multiplier unit (`43_schoolbook_multiplier.md`): the command MULS. -/

namespace Sys2Proof.Machine

/-- The pairs (i, j) with i, j < N in row-major order, i outer and j inner (R142). -/
def rowMajor (n : Nat) : List (Nat × Nat) :=
  (List.range n).flatMap fun i => (List.range n).map fun j => (i, j)

/-- One turn of the loop of R140: the partial product of limbs i and j, folded in at offset i + j. The last carry is
dropped: R143 proves it 0, and `93_implementation_defined.md` U3 asks for no fault path here (log 11). -/
def foldProduct (n : Nat) (a b p : List Word) (ij : Nat × Nat) : List Word :=
  (accumulate n (ij.1 + ij.2) (wmul64 (a.getD ij.1 0#64) (b.getD ij.2 0#64)).1
    (wmul64 (a.getD ij.1 0#64) (b.getD ij.2 0#64)).2 p).1

/-- The final bank P of MULS (R140): cleared first (R141), then all N² partial products in row-major order (R142). -/
def schoolbook (n : Nat) (a b : List Word) : List Word :=
  (rowMajor n).foldl (foldProduct n a b) (zeroedProduct n)

/-- MULS (R140). -/
def execMuls (s : State) : Result :=
  .next (s.commence (header .muls) none fun s => (s.setProduct (schoolbook s.n s.a s.b)).ok [])

end Sys2Proof.Machine
end

