-- ==== Sys2Proof/Machine/Dispatch.lean ====
section
/-! DEFINITION. `exec`: one arm per command of the opcode table (`30_encoding.md` R73), each a call of its meaning. -/

namespace Sys2Proof.Machine

def exec (i : Instr) (s : State) : Host.Outcome State Fault Refusal :=
  match i with
  | .wmul a b => Sys2Proof.Machine.execWmul a b s
  | .adc a b cin => Sys2Proof.Machine.execAdc a b cin s
  | .zero => Sys2Proof.Machine.execZero s
  | .acc off lo hi => Sys2Proof.Machine.execAcc off lo hi s
  | .muls => Sys2Proof.Machine.execMuls s
  | .mulf => Sys2Proof.Machine.execMulf s
  | .wra k v => Sys2Proof.Machine.execWra k v s
  | .wrb k v => Sys2Proof.Machine.execWrb k v s
  | .wrp k v => Sys2Proof.Machine.execWrp k v s
  | .rda k => Sys2Proof.Machine.execRda k s
  | .rdb k => Sys2Proof.Machine.execRdb k s
  | .rdp k => Sys2Proof.Machine.execRdp k s
  | .rds r => Sys2Proof.Machine.execRds r s

end Sys2Proof.Machine
end

