-- ==== Sys2Proof/Machine/Port.lean ====
section
/-! DEFINITION. The command port and the reset input: how one input is served (`60_exceptions.md` R204,
`70_reset_and_hazards.md` R230, R232). -/

namespace Sys2Proof.Machine

/-- A request: decoded, then executed or rejected, in the order of R204. -/
def serveRequest (r : Request) (s : State) : Result :=
  match decode r with
  | .ok i => exec i s
  | .error .illegal => .next (s.reject .illegal r.header)
  | .error .wrongLength => .next (s.reject .cvLength r.header)

/-- One input of the host. A reset that comes during a command abandons it: no response is sent and the state is that
after any reset (R232; log 6). -/
def serveInput (x : Input) (s : State) : Result :=
  match x with
  | .request r => serveRequest r s
  | .reset _ => .next s.resetBlock

end Sys2Proof.Machine
end

