-- ==== Sys2Proof/Machine/Step.lean ====
section
/-! DEFINITION. One step: the next input of the host is taken from the port and served; with none the block is idle. -/

namespace Sys2Proof.Machine

/-- One step (`00_scope.md` R12): the first input of `inbox` is taken and served whole, before the next is looked at
(`20_memory.md` R60, R62). With no input the block is idle and keeps all its state (`60_exceptions.md` R217). -/
def step (s : State) : Host.Outcome State Fault Refusal :=
  match s.inbox with
  | [] => .next s
  | x :: rest => serveInput x { s with inbox := rest }

/-- The state in which the next input is the request whose bits are `w` (`tableRequest`): commands arrive on the port
and are fetched from nowhere (`10_state.md` R26), so the request is put in front of `inbox` (log 4). -/
def State.withFetchWord (s : State) (nbits w : Nat) : State :=
  { s with inbox := .request (tableRequest nbits w) :: s.inbox }

end Sys2Proof.Machine
end

