-- ==== Sys2Proof/Laws/Decode.lean ====
section
/-! SUPPORT. The decoder and the encoder by the fields of the header (`30_encoding.md` R71): which row a header selects,
and what the header of an instruction is as a number. -/

namespace Sys2Proof

section
variable (h : Word)

theorem opcField_toNat : (opcField h).toNat = h.toNat / 2 ^ 56 % 2 ^ 8 := by
  simp [opcField, Nat.shiftRight_eq_div_pow]

theorem rsvField_toNat : (rsvField h).toNat = h.toNat / 2 ^ 16 % 2 ^ 40 := by
  simp [rsvField, Nat.shiftRight_eq_div_pow]

theorem idxField_eq : idxField h = h.toNat % 2 ^ 16 := by simp [idxField]

theorem idxField_lt : idxField h < 65536 := by rw [idxField_eq]; omega

/-- A header is its three fields (R71). -/
theorem header_fields : h.toNat = (opcField h).toNat * 2 ^ 56 + (rsvField h).toNat * 2 ^ 16 + idxField h := by
  have := h.isLt
  rw [opcField_toNat, rsvField_toNat, idxField_eq]
  omega

theorem cinField_eq : cinField h = decide (h.toNat % 2 = 1) := by
  simp [cinField, BitVec.getLsbD, Nat.testBit_zero]

/-- A row whose mask is all ones selects its pattern only. -/
theorem selects_full (op : Mnemonic) (f : Format) (pat : Word) :
    Row.selects ⟨op, f, pat, 0xFFFFFFFFFFFFFFFF⟩ h = decide (h = pat) := by
  have : h &&& 0xFFFFFFFFFFFFFFFF = h := BitVec.and_allOnes
  simp only [Row.selects, this]
  rfl

/-- A row whose mask leaves the low `k` bits free looks at the bits above them. -/
theorem and_high_mask (k : Nat) : h &&& (BitVec.allOnes 64 <<< k) = (h >>> k) <<< k := by
  ext i hi
  simp only [BitVec.getElem_and, BitVec.getElem_shiftLeft, BitVec.getElem_allOnes]
  by_cases hik : i < k
  · simp [hik]
  · simp [hik, BitVec.getElem_eq_testBit_toNat, show k + (i - k) = i by omega]

theorem selects_high (op : Mnemonic) (f : Format) (pat mask : Word) (k : Nat)
    (hm : mask = BitVec.allOnes 64 <<< k) (hp : pat.toNat % 2 ^ k = 0) :
    Row.selects ⟨op, f, pat, mask⟩ h = decide (h.toNat / 2 ^ k = pat.toNat / 2 ^ k) := by
  have hkey : ((h >>> k) <<< k).toNat = h.toNat / 2 ^ k * 2 ^ k := by
    have : h.toNat / 2 ^ k * 2 ^ k < 2 ^ 64 := lt_of_le_of_lt (Nat.div_mul_le_self _ _) h.isLt
    simp only [BitVec.toNat_shiftLeft, BitVec.toNat_ushiftRight, Nat.shiftRight_eq_div_pow, Nat.shiftLeft_eq]
    exact Nat.mod_eq_of_lt this
  have hpat : pat.toNat = pat.toNat / 2 ^ k * 2 ^ k := (Nat.div_mul_cancel (Nat.dvd_of_mod_eq_zero hp)).symm
  simp only [Row.selects, hm, and_high_mask h k]
  rw [Bool.eq_iff_iff, beq_iff_eq, decide_eq_true_iff, ← BitVec.toNat_inj, hkey]
  constructor
  · intro he
    rw [← he, Nat.mul_div_cancel _ (Nat.two_pow_pos k)]
  · intro he
    rw [he, ← hpat]

/-- A row whose mask leaves `idx` free (formats I, W, A). -/
theorem selects_index (op : Mnemonic) (f : Format) (pat : Word) (hp : pat.toNat % 2 ^ 16 = 0) :
    Row.selects ⟨op, f, pat, 0xFFFFFFFFFFFF0000⟩ h = decide (h.toNat / 2 ^ 16 = pat.toNat / 2 ^ 16) :=
  selects_high h op f pat _ 16 (by decide) hp

/-- The row whose mask leaves bit 0 free (format C). -/
theorem selects_carry (op : Mnemonic) (f : Format) (pat : Word) (hp : pat.toNat % 2 ^ 1 = 0) :
    Row.selects ⟨op, f, pat, 0xFFFFFFFFFFFFFFFE⟩ h = decide (h.toNat / 2 ^ 1 = pat.toNat / 2 ^ 1) :=
  selects_high h op f pat _ 1 (by decide) hp

/-- Each mask covers `opc`, so a row selects only headers with its own `opc` (R73). -/
theorem opcField_of_selects {h : Word} {row : Row} (hr : row ∈ opcodeTable) (hs : row.selects h = true) :
    opcField h = opcField row.pattern := by
  have hmask : ∀ r ∈ opcodeTable, opcField r.mask = 0xFF := by decide
  rw [Row.selects, beq_iff_eq] at hs
  rw [← hs, opcField, opcField, BitVec.extractLsb'_and]
  have := hmask row hr
  rw [opcField] at this
  rw [this]
  exact (BitVec.and_allOnes).symm

/-- The rows' `opc` values differ (R73). -/
theorem row_of_opcField {r₁ r₂ : Row} (h₁ : r₁ ∈ opcodeTable) (h₂ : r₂ ∈ opcodeTable)
    (he : opcField r₁.pattern = opcField r₂.pattern) : r₁ = r₂ := by
  have : ∀ a ∈ opcodeTable, ∀ b ∈ opcodeTable, opcField a.pattern = opcField b.pattern → a = b := by decide
  exact this _ h₁ _ h₂ he

/-- Which row a header selects: `selectRow` answers a row iff that row of the table selects the header (R75). -/
theorem selectRow_eq_some {row : Row} : selectRow h = some row ↔ row ∈ opcodeTable ∧ row.selects h = true := by
  constructor
  · intro hs
    exact ⟨List.mem_of_find?_eq_some hs, List.find?_some (p := fun r : Row => r.selects h) hs⟩
  · rintro ⟨hr, hs⟩
    cases hf : selectRow h with
    | none => exact absurd hs (by simpa using List.find?_eq_none.mp hf row hr)
    | some r =>
      have h1 := List.mem_of_find?_eq_some hf
      have h2 : r.selects h = true := List.find?_some (p := fun r : Row => r.selects h) hf
      rw [row_of_opcField h1 hr ((opcField_of_selects h1 h2).symm.trans (opcField_of_selects hr hs))]

/-- No row: "no command" (R75). -/
theorem selectRow_eq_none : selectRow h = none ↔ ∀ row ∈ opcodeTable, row.selects h = false := by
  simp [selectRow, List.find?_eq_none]

end

/-- The header built from an `opc` and an index that fits, as a number (R71). -/
theorem headerOf_toNat (opc : BitVec 8) (idx : Nat) : (headerOf opc idx).toNat = opc.toNat * 2 ^ 56 + idx % 2 ^ 16 := by
  have h1 : idx % 2 ^ 16 < 2 ^ 56 := lt_of_lt_of_le (Nat.mod_lt _ (by decide)) (by decide)
  simp only [headerOf, BitVec.toNat_append, BitVec.toNat_ofNat]
  rw [show (0 : BitVec 40).toNat <<< 16 = 0 from rfl, Nat.zero_or, Nat.shiftLeft_eq, Nat.mul_comm opc.toNat,
    ← Nat.two_pow_add_eq_or_of_lt h1, Nat.mul_comm]

/-- The decoder by the row selected. -/
theorem decode_of_row {r : Request} {row : Row} (h : selectRow r.header = some row) :
    decode r = match assemble row.op r.header r.data with
      | none => .error .wrongLength
      | some i => .ok i := by
  unfold decode
  generalize selectRow r.header = x at h
  subst h
  rfl

theorem decode_of_no_row {r : Request} (h : selectRow r.header = none) : decode r = .error .illegal := by
  simp [decode, h]

theorem noBeats_isSome (i : Instr) (data : List Word) : (noBeats i data).isSome = true ↔ data.length = 0 := by
  cases data <;> simp [noBeats]

theorem oneBeat_isSome (f : Word → Instr) (data : List Word) : (oneBeat f data).isSome = true ↔ data.length = 1 := by
  rcases data with _ | ⟨v, _ | ⟨w, l⟩⟩ <;> simp [oneBeat]

theorem twoBeats_isSome (f : Word → Word → Instr) (data : List Word) :
    (twoBeats f data).isSome = true ↔ data.length = 2 := by
  rcases data with _ | ⟨v, _ | ⟨w, _ | ⟨x, l⟩⟩⟩ <;> simp [twoBeats]

/-- The operands are there iff the number of data beats is the one of R72. -/
theorem assemble_isSome {row : Row} (hr : row ∈ opcodeTable) (h : Word) (data : List Word) :
    (assemble row.op h data).isSome = true ↔ data.length = row.format.dataBeats := by
  have hrow : (row.op, row.format) ∈ opcodeTable.map fun r => (r.op, r.format) := List.mem_map_of_mem hr
  have hbeats : ∀ x ∈ opcodeTable.map (fun r => (r.op, r.format)), ∀ l : List Word,
      (assemble x.1 h l).isSome = true ↔ l.length = x.2.dataBeats := by
    simp only [opcodeTable, List.map, List.forall_mem_cons, assemble, noBeats_isSome, oneBeat_isSome,
      twoBeats_isSome, Format.dataBeats]
    simp
  exact hbeats _ hrow data

end Sys2Proof
end

