-- ==== Sys2Proof/Laws/PerInstr.lean ====
section
/-! SUPPORT. The family stated per instruction: what the packet of an instruction is, as syntax (`30_encoding.md` R71,
R72). -/

namespace Sys2Proof.Laws.Encoding

/-- The `opc` byte of an instruction (R73). -/
def opcOf : Instr → BitVec 8
  | .wmul _ _ => 0x01
  | .adc _ _ _ => 0x02
  | .zero => 0x03
  | .acc _ _ _ => 0x04
  | .muls => 0x05
  | .mulf => 0x06
  | .wra _ _ => 0x10
  | .wrb _ _ => 0x11
  | .wrp _ _ => 0x12
  | .rda _ => 0x14
  | .rdb _ => 0x15
  | .rdp _ => 0x16
  | .rds _ => 0x18

/-- The packet of a well-formed instruction has the instruction's `opc`, `rsv0` zero, and at most two data beats. -/
def Statement (i : Instr) : Prop :=
  i.wellFormed = true → opcField (header i) = opcOf i ∧ rsvField (header i) = 0 ∧ (encode i).data.length ≤ 2

theorem opcField_headerOf (opc : BitVec 8) (idx : Nat) : opcField (headerOf opc idx) = opc := by
  apply BitVec.eq_of_toNat_eq
  have := opc.isLt
  rw [opcField_toNat, headerOf_toNat]
  omega

theorem rsvField_headerOf (opc : BitVec 8) (idx : Nat) : rsvField (headerOf opc idx) = 0 := by
  apply BitVec.eq_of_toNat_eq
  have := opc.isLt
  rw [rsvField_toNat, headerOf_toNat, show (0 : BitVec 40).toNat = 0 from rfl]
  omega

theorem of_headerOf {i : Instr} (idx : Nat) (h : header i = headerOf (opcOf i) idx) (hd : (dataBeats i).length ≤ 2) :
    Statement i := fun _ => by
  rw [h]
  exact ⟨opcField_headerOf _ _, rsvField_headerOf _ _, hd⟩

theorem wmul (a b : Word) : Statement (.wmul a b) := of_headerOf 0 rfl (by simp [dataBeats])
theorem adc (a b : Word) (cin : Bool) : Statement (.adc a b cin) := of_headerOf cin.toNat rfl (by simp [dataBeats])
theorem zero : Statement .zero := of_headerOf 0 rfl (by simp [dataBeats])
theorem acc (off : Nat) (lo hi : Word) : Statement (.acc off lo hi) := of_headerOf off rfl (by simp [dataBeats])
theorem muls : Statement .muls := of_headerOf 0 rfl (by simp [dataBeats])
theorem mulf : Statement .mulf := of_headerOf 0 rfl (by simp [dataBeats])
theorem wra (i : Nat) (v : Word) : Statement (.wra i v) := of_headerOf i rfl (by simp [dataBeats])
theorem wrb (i : Nat) (v : Word) : Statement (.wrb i v) := of_headerOf i rfl (by simp [dataBeats])
theorem wrp (k : Nat) (v : Word) : Statement (.wrp k v) := of_headerOf k rfl (by simp [dataBeats])
theorem rda (i : Nat) : Statement (.rda i) := of_headerOf i rfl (by simp [dataBeats])
theorem rdb (i : Nat) : Statement (.rdb i) := of_headerOf i rfl (by simp [dataBeats])
theorem rdp (k : Nat) : Statement (.rdp k) := of_headerOf k rfl (by simp [dataBeats])
theorem rds (r : Nat) : Statement (.rds r) := of_headerOf r rfl (by simp [dataBeats])

end Sys2Proof.Laws.Encoding
end

