-- ==== Sys2Proof/Machine/Assembler.lean ====
section
/-! DEFINITION. The assembler lines of `30_encoding.md` R79 and the pseudo-instructions of R80, as data: a line is a
mnemonic and its operands as integers (log 15). -/

namespace Sys2Proof.Machine

/-- An assembler line: the mnemonic and the operands in the order of R79, as non-negative integers. -/
structure AsmLine where
  op : Mnemonic
  operands : List Nat
  deriving DecidableEq, Repr

/-- A data operand: a word, or nothing when the number does not fit one; it is never truncated (R80). -/
def wordOperand (v : Nat) : Option Word := if v < beta then some (BitVec.ofNat 64 v) else none

/-- An index operand: it must fit `idx` (R71). -/
def indexOperand (i : Nat) : Option Nat := if indexFits i then some i else none

/-- The carry-in operand: 0 or 1 (R72). -/
def carryOperand (c : Nat) : Option Bool := if c < 2 then some (c == 1) else none

/-- A line with one index operand. -/
def indexLine (f : Nat → Instr) : List Nat → Option Instr
  | [i] => do return f (← indexOperand i)
  | _ => none

/-- A line with an index and a word. -/
def indexWordLine (f : Nat → Word → Instr) : List Nat → Option Instr
  | [i, v] => do return f (← indexOperand i) (← wordOperand v)
  | _ => none

/-- A line without operands. -/
def bareLine (i : Instr) : List Nat → Option Instr
  | [] => some i
  | _ => none

/-- The line `WMUL a, b`. -/
def wmulLine : List Nat → Option Instr
  | [a, b] => do return .wmul (← wordOperand a) (← wordOperand b)
  | _ => none

/-- The line `ADC a, b, cin`. -/
def adcLine : List Nat → Option Instr
  | [a, b, c] => do return .adc (← wordOperand a) (← wordOperand b) (← carryOperand c)
  | _ => none

/-- The line `ACC off, lo, hi`. -/
def accLine : List Nat → Option Instr
  | [off, lo, hi] => do return .acc (← indexOperand off) (← wordOperand lo) (← wordOperand hi)
  | _ => none

/-- The command of a line (R79), or nothing when the operands are too few, too many or too large. -/
def assembleLine (line : AsmLine) : Option Instr :=
  match line.op with
  | .wmul => wmulLine line.operands
  | .adc => adcLine line.operands
  | .zero => bareLine .zero line.operands
  | .acc => accLine line.operands
  | .muls => bareLine .muls line.operands
  | .mulf => bareLine .mulf line.operands
  | .wra => indexWordLine .wra line.operands
  | .wrb => indexWordLine .wrb line.operands
  | .wrp => indexWordLine .wrp line.operands
  | .rda => indexLine .rda line.operands
  | .rdb => indexLine .rdb line.operands
  | .rdp => indexLine .rdp line.operands
  | .rds => indexLine .rds line.operands

/-- The line of a command (R79). -/
def lineOf : Instr → AsmLine
  | .wmul a b => ⟨.wmul, [a.toNat, b.toNat]⟩
  | .adc a b cin => ⟨.adc, [a.toNat, b.toNat, cin.toNat]⟩
  | .zero => ⟨.zero, []⟩
  | .acc off lo hi => ⟨.acc, [off, lo.toNat, hi.toNat]⟩
  | .muls => ⟨.muls, []⟩
  | .mulf => ⟨.mulf, []⟩
  | .wra i v => ⟨.wra, [i, v.toNat]⟩
  | .wrb i v => ⟨.wrb, [i, v.toNat]⟩
  | .wrp k v => ⟨.wrp, [k, v.toNat]⟩
  | .rda i => ⟨.rda, [i]⟩
  | .rdb i => ⟨.rdb, [i]⟩
  | .rdp k => ⟨.rdp, [k]⟩
  | .rds r => ⟨.rds, [r]⟩

/-- The pseudo-instructions of R80. -/
inductive Pseudo where
  /-- SETA v: write the integer v into bank A. -/
  | seta (v : Nat)
  /-- SETB v: write the integer v into bank B. -/
  | setb (v : Nat)
  /-- GETP: read bank P, least significant limb first. -/
  | getp
  /-- MUL: the generic multiplication, MULS. -/
  | mul
  deriving DecidableEq, Repr

/-- The expansion of a pseudo-instruction in a block of N limbs (R80), or nothing when the assembler rejects the line:
a value that does not fit in N limbs is never truncated. -/
def expand (n : Nat) : Pseudo → Option (List Instr)
  | .seta v => if v < beta ^ n then some ((List.range n).map fun i => .wra i (limbOf i v)) else none
  | .setb v => if v < beta ^ n then some ((List.range n).map fun i => .wrb i (limbOf i v)) else none
  | .getp => some ((List.range (2 * n)).map fun k => .rdp k)
  | .mul => some [.muls]

end Sys2Proof.Machine
end

