-- ==== Sys2Proof/Machine/AssemblerText.lean ====
section
/-! DEFINITION. The characters of the assembler syntax of `30_encoding.md` R79: reading a line, writing one, and the
written form of a response. A line is a list of characters (log 15). -/

namespace Sys2Proof.Machine

/-- A blank. -/
def isBlank (c : Char) : Bool := c == ' ' || c == '\t'

/-- The characters without the blanks at either end. -/
def trim (cs : List Char) : List Char := ((cs.dropWhile isBlank).reverse.dropWhile isBlank).reverse

/-- The characters before a comment: `;` starts one (R79). -/
def beforeComment (cs : List Char) : List Char := cs.takeWhile fun c => c != ';'

/-- The pieces between commas (R79). -/
def splitCommas : List Char → List (List Char)
  | [] => [[]]
  | c :: cs =>
    if c = ',' then [] :: splitCommas cs
    else match splitCommas cs with
      | piece :: rest => (c :: piece) :: rest
      | [] => [[c]]

/-- The value of one digit, of base 16 or less. -/
def digitValue (c : Char) : Option Nat :=
  ("0123456789ABCDEF".toList.findIdx? (· == c)) <|> ("0123456789abcdef".toList.findIdx? (· == c))

/-- The number that digits of a base make after `n`. -/
def readDigits (base : Nat) : (n : Nat) → List Char → Option Nat
  | n, [] => some n
  | n, c :: cs =>
    match digitValue c with
    | some d => if d < base then readDigits base (n * base + d) cs else none
    | none => none

/-- A number, in decimal or in `0x` hexadecimal (R79). -/
def readNumber (cs : List Char) : Option Nat :=
  match cs with
  | [] => none
  | ['0', 'x'] => none
  | '0' :: 'x' :: ds => readDigits 16 0 ds
  | ds => readDigits 10 0 ds

/-- A register of RDS, written as a number or as its name (R79; `10_state.md` R29). -/
def readRegister (cs : List Char) : Option Nat :=
  if cs = ['S', 'T', 'A', 'T', 'U', 'S'] then some 0
  else if cs = ['C', 'O', 'N', 'F', 'I', 'G'] then some 1
  else if cs = ['F', 'H', 'D', 'R'] then some 2
  else readNumber cs

/-- The mnemonic, in capitals (R73, R79). -/
def mnemonicText : Mnemonic → List Char
  | .wmul => ['W', 'M', 'U', 'L']
  | .adc => ['A', 'D', 'C']
  | .zero => ['Z', 'E', 'R', 'O']
  | .acc => ['A', 'C', 'C']
  | .muls => ['M', 'U', 'L', 'S']
  | .mulf => ['M', 'U', 'L', 'F']
  | .wra => ['W', 'R', 'A']
  | .wrb => ['W', 'R', 'B']
  | .wrp => ['W', 'R', 'P']
  | .rda => ['R', 'D', 'A']
  | .rdb => ['R', 'D', 'B']
  | .rdp => ['R', 'D', 'P']
  | .rds => ['R', 'D', 'S']

/-- The thirteen mnemonics, in the order of R73. -/
def mnemonics : List Mnemonic :=
  [.wmul, .adc, .zero, .acc, .muls, .mulf, .wra, .wrb, .wrp, .rda, .rdb, .rdp, .rds]

/-- The mnemonic that is written so. -/
def readMnemonic (cs : List Char) : Option Mnemonic := mnemonics.find? fun m => mnemonicText m == cs

/-- The operands after the mnemonic: none, or the numbers between commas. -/
def readOperands (read : List Char → Option Nat) (cs : List Char) : Option (List Nat) :=
  if trim cs = [] then some [] else (splitCommas cs).mapM fun piece => read (trim piece)

/-- The characters of a line, cut into its first word and what follows. -/
def firstWord (cs : List Char) : List Char × List Char :=
  ((trim (beforeComment cs)).takeWhile (fun c => !isBlank c), (trim (beforeComment cs)).dropWhile (fun c => !isBlank c))

/-- One line of assembler text (R79), or nothing when it carries no command. -/
def assembleText (cs : List Char) : Option Instr :=
  match readMnemonic (firstWord cs).1 with
  | none => none
  | some m =>
    match readOperands (if m = .rds then readRegister else readNumber) (firstWord cs).2 with
    | none => none
    | some operands => assembleLine ⟨m, operands⟩

/-- A line with a pseudo-instruction (R80), or nothing. -/
def pseudoText (cs : List Char) : Option Pseudo :=
  match readOperands readNumber (firstWord cs).2 with
  | some [v] =>
    if (firstWord cs).1 = ['S', 'E', 'T', 'A'] then some (.seta v)
    else if (firstWord cs).1 = ['S', 'E', 'T', 'B'] then some (.setb v) else none
  | some [] =>
    if (firstWord cs).1 = ['G', 'E', 'T', 'P'] then some .getp
    else if (firstWord cs).1 = ['M', 'U', 'L'] then some .mul else none
  | _ => none

/-- The digit of a value below 16. -/
def hexDigit (d : Nat) : Char := "0123456789ABCDEF".toList.getD d '0'

/-- The lowest `k` hexadecimal digits of a number, the highest first. -/
def hexDigits : (k n : Nat) → List Char
  | 0, _ => []
  | k + 1, n => hexDigits k (n / 16) ++ [hexDigit (n % 16)]

/-- A word as the spec writes it: `0x` and sixteen digits. -/
def wordText (n : Nat) : List Char := '0' :: 'x' :: hexDigits 16 n

/-- Operands with a comma and a blank between two. -/
def operandsText : List Nat → List Char
  | [] => []
  | [n] => wordText n
  | n :: ns => wordText n ++ ',' :: ' ' :: operandsText ns

/-- The text of a command (R79), every operand in hexadecimal. -/
def textOf (i : Instr) : List Char :=
  match (lineOf i).operands with
  | [] => mnemonicText (lineOf i).op
  | operands => mnemonicText (lineOf i).op ++ ' ' :: operandsText operands

/-- The name of a status code (`60_exceptions.md` R200); codes from 0x07 are never produced. -/
def codeName (code : BitVec 8) : List Char :=
  (["OK", "ILLEGAL", "CV_LENGTH", "CV_INDEX", "CV_WIDTH", "ACC_OVERFLOW", "REFUSED"].getD code.toNat "").toList

/-- A response as R79 writes it: `-> OK`, `-> OK: w0, w1`, or the name of the code. -/
def responseText (r : Response) : List Char :=
  match r.results with
  | [] => "-> ".toList ++ codeName r.code
  | results => "-> ".toList ++ codeName r.code ++ ": ".toList ++ operandsText (results.map BitVec.toNat)

end Sys2Proof.Machine
end

