-- ==== Sys2Proof/Machine/OpSequence.lean ====
section
/-! DEFINITION. The exposed operation sequences: of MULS (`43_schoolbook_multiplier.md` R147) and of MULF
(`44_fixed_four_product_unit.md` R165), static lists that do not depend on the data, and what interpreting one does. No
command returns them. -/

namespace Sys2Proof.Machine

/-- The addend of an `adc` entry of MULS: `lo`, `hi` or the constant 0 (R147). -/
inductive Addend where
  | lo | hi | zero
  deriving DecidableEq, Repr

/-- The carry-in of an `adc` entry of MULS: the constant 0 or the running carry (R147). -/
inductive CarryIn where
  | zero | running
  deriving DecidableEq, Repr

/-- An entry of the sequence of MULS (R147). -/
inductive SeqOp where
  /-- Clear bank P. -/
  | zero
  /-- `(lo, hi) = wmul64(A[i], B[j])`. -/
  | wmul (i j : Nat)
  /-- `(P[d], c) = adc64(P[d], src, cin)`; `d` is the destination offset. -/
  | adc (d : Nat) (src : Addend) (cin : CarryIn)
  deriving DecidableEq, Repr

/-- The entry is a `wmul`. -/
def SeqOp.isWmul : SeqOp → Bool
  | .zero => false
  | .wmul _ _ => true
  | .adc _ _ _ => false

/-- The entry is an `adc`. -/
def SeqOp.isAdc : SeqOp → Bool
  | .zero => false
  | .wmul _ _ => false
  | .adc _ _ _ => true

/-- The entries of the pair (i, j): the multiply, then the full-length chain from limb i + j up (R147). -/
def pairOps (n : Nat) (ij : Nat × Nat) : List SeqOp :=
  .wmul ij.1 ij.2 :: .adc (ij.1 + ij.2) .lo .zero :: .adc (ij.1 + ij.2 + 1) .hi .running ::
    (List.range (2 * n - (ij.1 + ij.2 + 2))).map fun t => .adc (ij.1 + ij.2 + 2 + t) .zero .running

/-- The sequence of MULS at N (R147). -/
def mulsSequence (n : Nat) : List SeqOp := .zero :: (rowMajor n).flatMap (pairOps n)

/-- What interpreting a sequence of MULS carries from entry to entry: bank P and the transients (R27). -/
structure SeqState where
  p : List Word
  lo : Word
  hi : Word
  c : Bool
  deriving DecidableEq, Repr

/-- The value of an addend. -/
def SeqState.addend (t : SeqState) : Addend → Word
  | .lo => t.lo
  | .hi => t.hi
  | .zero => 0#64

/-- The value of a carry-in. -/
def SeqState.carryIn (t : SeqState) : CarryIn → Bool
  | .zero => false
  | .running => t.c

/-- Interpret one entry of the sequence of MULS, for operands `a` and `b` of N limbs. -/
def runSeqOp (n : Nat) (a b : List Word) (t : SeqState) : SeqOp → SeqState
  | .zero => { t with p := zeroedProduct n }
  | .wmul i j => { t with lo := (wmul64 (a.getD i 0#64) (b.getD j 0#64)).1, hi := (wmul64 (a.getD i 0#64) (b.getD j 0#64)).2 }
  | .adc d src cin =>
    { t with
      p := (addInto t.p d (t.addend src) (t.carryIn cin)).1
      c := (addInto t.p d (t.addend src) (t.carryIn cin)).2 }

/-- The transients of MULF by their names (R27); a carry is kept as a bit widened to a word. -/
inductive Transient where
  | l0 | h0 | l1 | h1 | l2 | h2 | l3 | h3 | x0 | x1 | c1 | xc | d1 | d2 | d3
  deriving DecidableEq, Repr

/-- Where a sum of MULF goes: to a transient, or to the limb of P that the entry's destination offset names (R165). -/
inductive Dest where
  | transient (x : Transient)
  | limb (k : Nat)
  deriving DecidableEq, Repr

/-- An entry of the sequence of MULF (R165). -/
inductive FixedOp where
  /-- Clear bank P. -/
  | zero
  /-- A multiply tagged (i, j), with the transients that take `lo` and `hi`. -/
  | wmul (i j : Nat) (lo hi : Transient)
  /-- A move to a limb of P. -/
  | move (k : Nat) (src : Transient)
  /-- `(dest, carry) = adc64(x, y, cin)`, both addends transients; no `cin` is the constant 0. -/
  | adc (dest : Dest) (carry x y : Transient) (cin : Option Transient)
  deriving DecidableEq, Repr

/-- The sequence of MULF: the zeroing, then the ten entries of R161 (R165). DESIGN CHOICE (log 16): the zeroing is an
entry of its own, as it is in R147's form; R165 says only that the ten entries come after it. -/
def mulfSequence : List FixedOp :=
  [ .zero,
    .wmul 0 0 .l0 .h0, .wmul 0 1 .l1 .h1, .wmul 1 0 .l2 .h2, .wmul 1 1 .l3 .h3,
    .adc (.transient .x0) .c1 .l1 .l2 none,
    .adc (.transient .x1) .xc .h1 .h2 (some .c1),
    .move 0 .l0,
    .adc (.limb 1) .d1 .h0 .x0 none,
    .adc (.limb 2) .d2 .l3 .x1 (some .d1),
    .adc (.limb 3) .d3 .h3 .xc (some .d2) ]

/-- What interpreting the sequence of MULF carries from entry to entry: bank P and the transients written so far, the
latest first. -/
structure FixedState where
  p : List Word
  vals : List (Transient × Word)
  deriving DecidableEq, Repr

/-- The latest value of a transient; each is given its value before it is read (R27). -/
def FixedState.get (t : FixedState) (x : Transient) : Word :=
  match t.vals.find? (fun e => e.1 == x) with
  | some e => e.2
  | none => 0#64

/-- A carry-in: the constant 0, or the bit of a transient. -/
def FixedState.carryIn (t : FixedState) (cin : Option Transient) : Bool :=
  match cin with
  | none => false
  | some x => t.get x != 0#64

/-- Interpret one entry of the sequence of MULF, for operands of two limbs. -/
def runFixedOp (a b : List Word) (t : FixedState) : FixedOp → FixedState
  | .zero => { t with p := zeroedProduct 2 }
  | .wmul i j lo hi =>
    { t with vals := (hi, (wmul64 (a.getD i 0#64) (b.getD j 0#64)).2) :: (lo, (wmul64 (a.getD i 0#64) (b.getD j 0#64)).1) :: t.vals }
  | .move k src => { t with p := t.p.set k (t.get src) }
  | .adc dest carry x y cin =>
    let r := adc64 (t.get x) (t.get y) (t.carryIn cin)
    match dest with
    | .transient d => { t with vals := (carry, carryWord r.2) :: (d, r.1) :: t.vals }
    | .limb k => { p := t.p.set k r.1, vals := (carry, carryWord r.2) :: t.vals }

end Sys2Proof.Machine
end

