-- ==== Sys2Proof/Machine/HostPrograms.lean ====
section
/-! DEFINITION. Sequences of commands sent by a host, for claims: a list of commands run in order, and the host-driven
schoolbook multiplication of `30_encoding.md` R81. -/

namespace Sys2Proof.Machine

/-- The state after one command. Every command of the table answers a next state; a refusal would leave the state. -/
def State.drive (s : State) (i : Instr) : State :=
  match exec i s with
  | .next t => t
  | .fault r => nomatch r
  | .refused _ => s

/-- The state after a list of commands, one after the other (`20_memory.md` R60). -/
def State.driveAll (s : State) (l : List Instr) : State := l.foldl State.drive s

/-- Result beat `k` of the latest response: what the host has just read. -/
def State.lastResult (s : State) (k : Nat) : Word :=
  match s.sent.getLast? with
  | some r => r.results.getD k 0#64
  | none => 0#64

/-- One turn of R81: `RDA i -> a`; `RDB j -> b`; `WMUL a, b -> lo, hi`; `ACC i+j, lo, hi`. -/
def State.hostTurn (s : State) (ij : Nat × Nat) : State :=
  let s1 := s.drive (.rda ij.1)
  let s2 := s1.drive (.rdb ij.2)
  let s3 := s2.drive (.wmul (s1.lastResult 0) (s2.lastResult 0))
  s3.drive (.acc (ij.1 + ij.2) (s3.lastResult 0) (s3.lastResult 1))

/-- The host-driven schoolbook of R81: ZERO, then one turn for each pair in row-major order. -/
def State.hostSchoolbook (s : State) : State := (rowMajor s.n).foldl State.hostTurn (s.drive .zero)

end Sys2Proof.Machine
end

