-- ==== Sys2Proof/Safety.lean ====
section
/-! DEFINITION. The terms that claims use: the invariant of a block's state, and when a run has gone wrong
(`00_scope.md` R13). -/

namespace Sys2Proof.Machine

/-- The form of the state: N is in its range (R8), A and B have N limbs and P has 2N (`10_state.md` R20). -/
abbrev State.wf (s : State) : Prop :=
  1 ≤ s.n ∧ s.n ≤ Config.maxLimbs ∧ s.a.length = s.n ∧ s.b.length = s.n ∧ s.p.length = 2 * s.n

/-- The fault registers: CAUSE is 0x00 to 0x05 (R30), and FHDR is 0 while CAUSE is 0 (R31). -/
abbrev State.causeLegal (s : State) : Prop := s.cause.toNat ≤ 5 ∧ (s.cause = 0#8 → s.fhdr = 0#64)

/-- The invariant of the machine. -/
abbrev State.Inv (s : State) : Prop := s.wf ∧ s.causeLegal

/-- The response reports that the command did not complete (`30_encoding.md` R76). -/
def Response.failed (r : Response) : Bool := r.code != 0#8

/-- `s` after a response of code 0 with these results and no other change. -/
abbrev State.okReply (s : State) (results : List Word) : State := { s with sent := s.sent ++ [⟨0#8, results⟩] }

/-- `s` after a response REFUSED (0x06) and no other change (`60_exceptions.md` R206). -/
abbrev State.refusedReply (s : State) : State := { s with sent := s.sent ++ [⟨6#8, []⟩] }

/-- `s` after fault entry with a cause 0x01 to 0x04 (`60_exceptions.md` R205): CAUSE, FHDR and the response, no bank. -/
abbrev State.faultEntry (s : State) (code : BitVec 8) (hdr : Word) : State :=
  { s with cause := code, fhdr := hdr, sent := s.sent ++ [⟨code, []⟩] }

/-- `s` when its next input is the request `r`, and what is left after it. -/
abbrev State.nextRequest (s : State) (r : Request) (rest : List Input) : Prop := s.inbox = .request r :: rest

/-- What a block outside the fault state does with the requests whose `opc` byte is `opc`, by the header and the number
of data beats alone (`60_exceptions.md` R204 steps 2 and 3): a header outside `legal` raises ILLEGAL (0x01), and a legal
header with a number of data beats other than `beats` raises CV_LENGTH (0x02). -/
def RejectsMalformed (opc : BitVec 8) (legal : Word → Prop) (beats : Nat) : Prop :=
  ∀ (s : State) (r : Request) (rest : List Input), s.nextRequest r rest → s.cause = 0#8 → opcField r.header = opc →
    (¬ legal r.header → step s = .next ({ s with inbox := rest }.faultEntry 1 r.header)) ∧
    (legal r.header → r.data.length ≠ beats → step s = .next ({ s with inbox := rest }.faultEntry 2 r.header))

/-- How many result beats a command answers with on `OK` (`30_encoding.md` R76). -/
def resultBeats : Instr → Nat
  | .wmul _ _ => 2
  | .adc _ _ _ => 2
  | .zero => 0
  | .acc _ _ _ => 0
  | .muls => 0
  | .mulf => 0
  | .wra _ _ => 0
  | .wrb _ _ => 0
  | .wrp _ _ => 0
  | .rda _ => 1
  | .rdb _ => 1
  | .rdp _ => 1
  | .rds _ => 1

/-- The states of the runs (R13): a block of any legal N just after reset, whatever its limbs hold and whatever inputs
the host will present, and every state that steps reach from there. -/
inductive Reachable : State → Prop where
  | powerOn (n : Nat) (limbs : Bank → Nat → Word) (inbox : List Input) (h : 1 ≤ n ∧ n ≤ Config.maxLimbs) :
      Reachable { State.powerOn n limbs with inbox := inbox }
  | step (s t : State) (hs : Reachable s) (ht : step s = .next t) : Reachable t

end Sys2Proof.Machine
end

