-- ==== Sys2Proof/Certificates/Slice0/Obligations.lean ====
section
/-! DEFINITION. The statements about the machine, for the provers. Each docstring names the rule of the spec it
formalises. `OBLIGATIONS.json` lists them. -/

open Sys2Proof Sys2Proof.Machine

/-! ### Encoding -/

/-- R71, R73, R74: a few headers of the spec's own examples and vectors decode to the commands they stand for. -/
def Obligations.SampleHeadersDecode : Prop :=
  decode ⟨0x0100000000000000, [0xF, 0x10]⟩ = .ok (.wmul 0xF 0x10) ∧
  decode ⟨0x0200000000000001, [1, 2]⟩ = .ok (.adc 1 2 true) ∧
  decode ⟨0x0400000000000002, [5, 7]⟩ = .ok (.acc 2 5 7) ∧
  decode ⟨0x1000000000000001, [0xFEDCBA9876543210]⟩ = .ok (.wra 1 0xFEDCBA9876543210) ∧
  decode ⟨0x160000000000FFFF, []⟩ = .ok (.rdp 65535) ∧
  decode ⟨0x0500000000000001, []⟩ = .error .illegal ∧
  decode ⟨0x0000000000000000, [1, 2, 3]⟩ = .error .illegal ∧
  decode ⟨0x0100000000000000, [1]⟩ = .error .wrongLength

/-- R70 to R74: decoding the packet of a well-formed instruction gives the instruction back, with every operand. -/
def Obligations.DecodeOfEncode : Prop :=
  ∀ i : Instr, i.wellFormed = true → decode (encode i) = .ok i

/-- R74, R75: a request that decodes to an instruction is that instruction's packet, bit for bit, so no bit of it is
dropped and no two packets mean one instruction. -/
def Obligations.EncodeOfDecode : Prop :=
  ∀ (r : Request) (i : Instr), decode r = .ok i → i.wellFormed = true ∧ encode i = r

/-- R75: decoding is total and unambiguous: for any header there is at most one row with `header AND mask = match`, the
decoder takes that row, and it answers "no command" exactly when there is none. -/
def Obligations.DecodingSelectsTheOneRow : Prop :=
  ∀ h : Word,
    (∀ row ∈ opcodeTable, h &&& row.mask = row.pattern → selectRow h = some row) ∧
    (∀ r₁ ∈ opcodeTable, ∀ r₂ ∈ opcodeTable,
      h &&& r₁.mask = r₁.pattern → h &&& r₂.mask = r₂.pattern → r₁ = r₂) ∧
    ((∀ row ∈ opcodeTable, h &&& row.mask ≠ row.pattern) ↔ selectRow h = none)

/-- R77: a request is illegal exactly when its `opc` is none of the thirteen, or `rsv0` is non-zero, or `idx` is
non-zero in formats Z and M, or bits 15:1 of it are in format C; whatever its data beats. Outside the fault state it then
raises ILLEGAL. -/
def Obligations.IllegalHeaders : Prop :=
  ∀ r : Request,
    (decode r = .error .illegal ↔
      opcField r.header ∉ [0x01#8, 0x02#8, 0x03#8, 0x04#8, 0x05#8, 0x06#8, 0x10#8, 0x11#8, 0x12#8, 0x14#8, 0x15#8,
        0x16#8, 0x18#8] ∨
      rsvField r.header ≠ 0 ∨
      (opcField r.header ∈ [0x01#8, 0x03#8, 0x05#8, 0x06#8] ∧ idxField r.header ≠ 0) ∨
      (opcField r.header = 0x02#8 ∧ 2 ≤ idxField r.header)) ∧
    (decode r = .error .illegal → ∀ (s : State) (rest : List Input), s.nextRequest r rest → s.cause = 0#8 →
      step s = .next ({ s with inbox := rest }.faultEntry 1 r.header))

/-- R78: a header that selects a row with another number of data beats than its format's, more or fewer, raises
CV_LENGTH and nothing is truncated or padded: no bank changes. -/
def Obligations.WrongDataBeatsRaiseLength : Prop :=
  ∀ (r : Request) (row : Row), selectRow r.header = some row → r.data.length ≠ row.format.dataBeats →
    decode r = .error .wrongLength ∧
    ∀ (s : State) (rest : List Input), s.nextRequest r rest → s.cause = 0#8 →
      step s = .next ({ s with inbox := rest }.faultEntry 2 r.header)

/-- R79: the text of a well-formed instruction assembles to it, so does its line, and only lines of well-formed
instructions assemble. What R79 leaves open of the text is the model's choice (DESIGN CHOICE, log 15). -/
def Obligations.AssemblerLinesRoundTrip : Prop :=
  (∀ i : Instr, i.wellFormed = true → assembleLine (lineOf i) = some i ∧ assembleText (textOf i) = some i) ∧
  (∀ (l : AsmLine) (i : Instr), assembleLine l = some i → i.wellFormed = true ∧ lineOf i = l)

/-! ### The step -/

/-- When the next request decodes to an instruction, the step takes the request from the port and is `exec` of instruction; every per-instruction statement reaches a run through this one. The list `inbox` is the model's form of the
port (DESIGN CHOICE, log 4). -/
def Obligations.StepRunsTheDecodedCommand : Prop :=
  ∀ (s : State) (r : Request) (rest : List Input) (i : Instr), s.nextRequest r rest → decode r = .ok i →
    step s = exec i { s with inbox := rest }

/-- R217: with no input the block is idle and keeps all its state. That an empty port is one idle step is the model's
form of it (DESIGN CHOICE, log 4). -/
def Obligations.IdleKeepsState : Prop :=
  ∀ s : State, s.inbox = [] → step s = .next s

/-- R204: the order of the checks for every request, the first that fails deciding the outcome: the fault state, the
decoding, the number of data beats, then the command. -/
def Obligations.OrderOfChecks : Prop :=
  ∀ (s : State) (r : Request) (rest : List Input), s.nextRequest r rest →
    (s.cause ≠ 0#8 → ∀ k, decode r = .ok (.rds k) → k ≤ 2 →
      step s = .next ({ s with inbox := rest }.okReply [s.register k])) ∧
    (s.cause ≠ 0#8 → (∀ k, decode r = .ok (.rds k) → 2 < k) →
      step s = .next { s with inbox := rest }.refusedReply) ∧
    (s.cause = 0#8 → selectRow r.header = none →
      step s = .next ({ s with inbox := rest }.faultEntry 1 r.header)) ∧
    (s.cause = 0#8 → ∀ row, selectRow r.header = some row → r.data.length ≠ row.format.dataBeats →
      step s = .next ({ s with inbox := rest }.faultEntry 2 r.header)) ∧
    (s.cause = 0#8 → ∀ i, decode r = .ok i → step s = exec i { s with inbox := rest })

/-- R239: every step answers a next state; the block cannot hang and no state is stuck. -/
def Obligations.EveryStepAnswers : Prop :=
  ∀ s : State, ∃ t, step s = .next t

/-- R76: a request gets exactly one response, after those already sent; its code is 0x00 to 0x06, its result beats come
only with code 0x00, as many as the command's row of the rule says, and its status beat has bits 63:8 zero. The list `sent` is the model's
(DESIGN CHOICE, log 5). -/
def Obligations.OneResponsePerRequest : Prop :=
  ∀ (s t : State) (r : Request) (rest : List Input), s.nextRequest r rest → step s = .next t →
    ∃ resp : Response, t.sent = s.sent ++ [resp] ∧ resp.code.toNat ≤ 6 ∧ (resp.code ≠ 0#8 → resp.results = []) ∧
      (∀ i, decode r = .ok i → resp.code = 0#8 → resp.results.length = resultBeats i) ∧
      resp.beats = resp.code.setWidth 64 :: resp.results ∧ (resp.code.setWidth 64 : Word).toNat < 256 ∧
      t.inbox = rest

/-! ### Reset, the invariant, and rules of the whole machine -/

/-- R34: what reset leaves: CAUSE and FHDR 0, CONFIG as built, and every limb at the unspecified value `reset_limbs`,
whatever that is; `State.reset` is such a state. -/
def Obligations.ResetLeaves : Prop :=
  State.reset = State.powerOn State.reset.n (Config.resetLimb 0) ∧
  ∀ (n : Nat) (limbs : Bank → Nat → Word),
    (State.powerOn n limbs).cause = 0#8 ∧ (State.powerOn n limbs).fhdr = 0#64 ∧
    (State.powerOn n limbs).register 0 = 0#64 ∧ (State.powerOn n limbs).register 1 = configWord n ∧
    (State.powerOn n limbs).register 2 = 0#64 ∧ (State.powerOn n limbs).n = n ∧
    (∀ i < n, (State.powerOn n limbs).limb .A i = limbs .A i) ∧
    (∀ i < n, (State.powerOn n limbs).limb .B i = limbs .B i) ∧
    (∀ k < 2 * n, (State.powerOn n limbs).limb .P k = limbs .P k)

/-- R230, R232: the reset input, between commands or during one, gives that state again in a block of the same N, from
any state, the fault state too; no response is sent for an abandoned command. The form of the input is the model's
(DEDUCED, log 6). -/
def Obligations.ResetInput : Prop :=
  ∀ (s : State) (abandoned : Option Request) (rest : List Input), s.inbox = .reset abandoned :: rest →
    ∃ (limbs : Bank → Nat → Word) (d : Nat),
      step s = .next { State.powerOn s.n limbs with inbox := rest, sent := s.sent, draws := d }

/-- The machine after reset meets the invariant, for every N that R8 allows and every content of the limbs. -/
def Obligations.ResetMeetsInvariant : Prop :=
  State.reset.Inv ∧ ∀ (n : Nat) (limbs : Bank → Nat → Word), 1 ≤ n → n ≤ 32768 → (State.powerOn n limbs).Inv

/-- R20, R24, R30, R31: every step keeps the invariant: the banks keep their lengths N, N and 2N, CAUSE stays a legal
value, and FHDR is 0 while CAUSE is. -/
def Obligations.StepKeepsInvariant : Prop :=
  ∀ s t : State, s.Inv → step s = .next t → t.Inv

/-- Every state of every run, of a block of any legal N with any reset content and any inputs, meets the invariant. -/
def Obligations.ReachableStatesMeetInvariant : Prop :=
  ∀ s : State, Reachable s → s.Inv

/-- R8: N never changes while the block exists. -/
def Obligations.StepKeepsN : Prop :=
  ∀ s t : State, step s = .next t → t.n = s.n

/-- R23: no command but WRA writes bank A and none but WRB writes bank B. -/
def Obligations.OperandBanksWrittenOnlyByWrites : Prop :=
  ∀ (i : Instr) (s t : State), exec i s = .next t →
    (t.a ≠ s.a → ∃ k v, i = .wra k v) ∧ (t.b ≠ s.b → ∃ k v, i = .wrb k v)

/-- R25, R50: bank P is written by ZERO, ACC, MULS, MULF and WRP only. -/
def Obligations.ProductBankWriters : Prop :=
  ∀ (i : Instr) (s t : State), exec i s = .next t → t.p ≠ s.p →
    i = .zero ∨ i = .muls ∨ i = .mulf ∨ (∃ off lo hi, i = .acc off lo hi) ∨ (∃ k v, i = .wrp k v)

/-- R35: CAUSE and FHDR change only by reset, which sets both to 0, and by fault entry, which sets CAUSE from 0 to a
non-zero code and FHDR to the header of the request, once. -/
def Obligations.FaultRegistersChangeOnlyOnce : Prop :=
  ∀ s t : State, step s = .next t →
    (s.inbox = [] → t.cause = s.cause ∧ t.fhdr = s.fhdr) ∧
    (∀ (x : Option Request) (rest : List Input), s.inbox = .reset x :: rest → t.cause = 0#8 ∧ t.fhdr = 0#64) ∧
    (∀ (r : Request) (rest : List Input), s.nextRequest r rest →
      (t.cause = s.cause ∧ t.fhdr = s.fhdr) ∨ (s.cause = 0#8 ∧ t.cause ≠ 0#8 ∧ t.fhdr = r.header))

/-- R205: fault entry, whatever raises it: a request served outside the fault state that ends with CAUSE non-zero has
set FHDR to its header, sent that code with no result beats, and left A and B and, for causes 0x01 to 0x04, P. -/
def Obligations.FaultEntry : Prop :=
  ∀ (s t : State) (r : Request) (rest : List Input), s.nextRequest r rest → s.cause = 0#8 → step s = .next t →
    t.cause ≠ 0#8 →
    1 ≤ t.cause.toNat ∧ t.cause.toNat ≤ 5 ∧ t.fhdr = r.header ∧ t.sent = s.sent ++ [⟨t.cause, []⟩] ∧
      t.inbox = rest ∧ t.n = s.n ∧ t.a = s.a ∧ t.b = s.b ∧ (t.cause ≠ 5#8 → t.p = s.p)

/-- R206: the fault state is sticky: a well-formed RDS is answered, every other request is answered REFUSED, and in
both cases nothing but the response log and the request consumed changes. -/
def Obligations.FaultStateIsSticky : Prop :=
  ∀ (s t : State) (r : Request) (rest : List Input), s.nextRequest r rest → s.cause ≠ 0#8 → step s = .next t →
    ∃ resp : Response, t = { s with inbox := rest, sent := s.sent ++ [resp] } ∧
      ((∃ k, decode r = .ok (.rds k) ∧ k ≤ 2 ∧ resp = ⟨0#8, [s.register k]⟩) ∨
       ((∀ k, decode r = .ok (.rds k) → 2 < k) ∧ resp = ⟨6#8, []⟩))

/-- R13: in a run, a response with a non-zero code is sent only into the fault state, and from there no command leads
out. -/
def Obligations.FailureMeansFaultState : Prop :=
  ∀ (s t : State) (r : Request) (rest : List Input) (resp : Response), s.nextRequest r rest → step s = .next t →
    t.sent = s.sent ++ [resp] → (resp.failed = true → t.cause ≠ 0#8) ∧ (s.cause ≠ 0#8 → t.cause = s.cause)

/-- R203: which command can raise which fault outside the fault state: no fault but CV_INDEX, CV_WIDTH and ACC_OVERFLOW
comes from a decoded command, each from the commands of the table only. -/
def Obligations.CommandFaults : Prop :=
  ∀ (i : Instr) (s t : State), s.cause = 0#8 → exec i s = .next t → t.cause ≠ 0#8 →
    (t.cause = 3#8 ∧ (∃ off lo hi, i = .acc off lo hi)) ∨
    (t.cause = 3#8 ∧ ((∃ k v, i = .wra k v) ∨ (∃ k v, i = .wrb k v) ∨ (∃ k v, i = .wrp k v) ∨ (∃ k, i = .rda k) ∨
      (∃ k, i = .rdb k) ∨ (∃ k, i = .rdp k) ∨ (∃ k, i = .rds k))) ∨
    (t.cause = 4#8 ∧ i = .mulf) ∨
    (t.cause = 5#8 ∧ (∃ off lo hi, i = .acc off lo hi))

/-! ### The primitives -/

/-- R100: `wmul64` is exact, for all operands. -/
def Obligations.WideningMultiplyIsExact : Prop :=
  ∀ a b : Word, a.toNat * b.toNat = (wmul64 a b).2.toNat * 2 ^ 64 + (wmul64 a b).1.toNat ∧
    (wmul64 a b).1.toNat = a.toNat * b.toNat % 2 ^ 64 ∧ (wmul64 a b).2.toNat = a.toNat * b.toNat / 2 ^ 64

/-- R102 (a) to (e): the laws of `wmul64`. -/
def Obligations.WideningMultiplyLaws : Prop :=
  ∀ a b : Word,
    (∀ lo hi : Word, a.toNat * b.toNat = hi.toNat * 2 ^ 64 + lo.toNat → wmul64 a b = (lo, hi)) ∧
    (wmul64 a b).2.toNat ≤ 2 ^ 64 - 2 ∧
    wmul64 maxWord maxWord = (1, 0xFFFFFFFFFFFFFFFE) ∧
    wmul64 a b = wmul64 b a ∧
    wmul64 a 0 = (0, 0) ∧ wmul64 a 1 = (a, 0) ∧
    (∀ e ≤ 63, (wmul64 a (BitVec.ofNat 64 (2 ^ e))).1.toNat = a.toNat * 2 ^ e % 2 ^ 64 ∧
      (wmul64 a (BitVec.ofNat 64 (2 ^ e))).2.toNat = a.toNat / 2 ^ (64 - e))

/-- R110: `adc64` is exact, for all operands and carries; it wraps and never saturates. -/
def Obligations.AddWithCarryIsExact : Prop :=
  ∀ (a b : Word) (c : Bool),
    (adc64 a b c).1.toNat = (a.toNat + b.toNat + c.toNat) % 2 ^ 64 ∧
    ((adc64 a b c).2 = true ↔ 2 ^ 64 ≤ a.toNat + b.toNat + c.toNat) ∧
    a.toNat + b.toNat + c.toNat = (adc64 a b c).2.toNat * 2 ^ 64 + (adc64 a b c).1.toNat

/-- R113 (a) to (d): the laws of `adc64`. -/
def Obligations.AddWithCarryLaws : Prop :=
  ∀ (a b : Word) (c : Bool),
    adc64 a b c = adc64 b a c ∧
    adc64 a 0 false = (a, false) ∧
    (a ≠ maxWord → adc64 a 0 true = (a + 1, false)) ∧ adc64 maxWord 0 true = (0, true) ∧
    ((adc64 a b c).2 = true ↔ (adc64 a b c).1.toNat < a.toNat + c.toNat)

/-- R111: a carry chain over vectors of n limbs is exact, for every n and every first carry. -/
def Obligations.CarryChainIsExact : Prop :=
  ∀ (x y : List Word) (c : Bool), x.length = y.length →
    (carryChain x y c).1.length = x.length ∧
    val (carryChain x y c).1 + (carryChain x y c).2.toNat * (2 ^ 64) ^ x.length = val x + val y + c.toNat

/-! ### The commands -/

/-- R101: WMUL. -/
def Obligations.WmulCommand : Prop :=
  (∀ a b, encode (.wmul a b) = ⟨0x0100000000000000, [a, b]⟩) ∧
  (∀ (a b : Word) (s : State), s.cause = 0#8 →
    ∃ lo hi : Word, exec (.wmul a b) s = .next (s.okReply [lo, hi]) ∧
      a.toNat * b.toNat = hi.toNat * 2 ^ 64 + lo.toNat) ∧
  (∀ (a b : Word) (s : State), s.cause ≠ 0#8 → exec (.wmul a b) s = .next s.refusedReply) ∧
  RejectsMalformed 0x01 (fun h => h = 0x0100000000000000) 2

/-- R112: ADC. -/
def Obligations.AdcCommand : Prop :=
  (∀ a b, encode (.adc a b false) = ⟨0x0200000000000000, [a, b]⟩ ∧
    encode (.adc a b true) = ⟨0x0200000000000001, [a, b]⟩) ∧
  (∀ (a b : Word) (cin : Bool) (s : State), s.cause = 0#8 →
    ∃ sum carryOut : Word, exec (.adc a b cin) s = .next (s.okReply [sum, carryOut]) ∧ carryOut.toNat ≤ 1 ∧
      a.toNat + b.toNat + cin.toNat = carryOut.toNat * 2 ^ 64 + sum.toNat) ∧
  (∀ (a b : Word) (cin : Bool) (s : State), s.cause ≠ 0#8 → exec (.adc a b cin) s = .next s.refusedReply) ∧
  RejectsMalformed 0x02 (fun h => h = 0x0200000000000000 ∨ h = 0x0200000000000001) 2

/-- R120: ZERO. -/
def Obligations.ZeroCommand : Prop :=
  encode .zero = ⟨0x0300000000000000, []⟩ ∧
  (∀ s : State, s.cause = 0#8 →
    exec .zero s = .next ({ s with p := List.replicate (2 * s.n) 0#64 }.okReply []) ∧
      val (List.replicate (2 * s.n) 0#64) = 0) ∧
  (∀ s : State, s.cause ≠ 0#8 → exec .zero s = .next s.refusedReply) ∧
  RejectsMalformed 0x03 (fun h => h = 0x0300000000000000) 0

/-- R121, R123: ACC. With a legal offset it answers OK exactly when the total is below β^(2N), and then the bank holds
the total, every limb below the offset is unchanged, and so is every limb from `k` up when no carry comes out of the
limbs below `k`; nothing outside bank P changes. Otherwise it raises ACC_OVERFLOW and the bank is unspecified. -/
def Obligations.AccCommand : Prop :=
  (∀ (off : Nat) (lo hi : Word), off < 65536 →
    (header (.acc off lo hi)).toNat = 0x0400000000000000 + off ∧ (encode (.acc off lo hi)).data = [lo, hi]) ∧
  (∀ (off : Nat) (lo hi : Word) (s : State), s.wf → s.cause = 0#8 → off + 2 ≤ 2 * s.n →
    val s.p + lo.toNat * (2 ^ 64) ^ off + hi.toNat * (2 ^ 64) ^ (off + 1) < (2 ^ 64) ^ (2 * s.n) →
    ∃ p : List Word, exec (.acc off lo hi) s = .next ({ s with p := p }.okReply []) ∧ p.length = 2 * s.n ∧
      val p = val s.p + lo.toNat * (2 ^ 64) ^ off + hi.toNat * (2 ^ 64) ^ (off + 1) ∧
      (∀ j < off, p.getD j 0#64 = s.p.getD j 0#64) ∧
      (∀ k, off + 2 ≤ k → k ≤ 2 * s.n →
        val (s.p.take k) + lo.toNat * (2 ^ 64) ^ off + hi.toNat * (2 ^ 64) ^ (off + 1) < (2 ^ 64) ^ k →
        ∀ j, k ≤ j → p.getD j 0#64 = s.p.getD j 0#64)) ∧
  (∀ (off : Nat) (lo hi : Word) (s : State), s.wf → s.cause = 0#8 → off + 2 ≤ 2 * s.n →
    (2 ^ 64) ^ (2 * s.n) ≤ val s.p + lo.toNat * (2 ^ 64) ^ off + hi.toNat * (2 ^ 64) ^ (off + 1) →
    ∃ (p : List Word) (d : Nat), exec (.acc off lo hi) s =
      .next ({ s with p := p, draws := d }.faultEntry 5 (header (.acc off lo hi))) ∧ p.length = 2 * s.n) ∧
  (∀ (off : Nat) (lo hi : Word) (s : State), s.cause = 0#8 → 2 * s.n < off + 2 →
    exec (.acc off lo hi) s = .next (s.faultEntry 3 (header (.acc off lo hi)))) ∧
  (∀ (off : Nat) (lo hi : Word) (s : State), s.cause ≠ 0#8 → exec (.acc off lo hi) s = .next s.refusedReply) ∧
  RejectsMalformed 0x04 (fun h => rsvField h = 0) 2

/-- R140, R144: MULS answers OK in every well-formed state outside the fault state, and bank P then holds exactly the
product of A and B; nothing else changes. -/
def Obligations.MulsCommand : Prop :=
  encode .muls = ⟨0x0500000000000000, []⟩ ∧
  (∀ s : State, s.wf → s.cause = 0#8 →
    ∃ p : List Word, exec .muls s = .next ({ s with p := p }.okReply []) ∧ p.length = 2 * s.n ∧
      val p = val s.a * val s.b) ∧
  (∀ s : State, s.cause ≠ 0#8 → exec .muls s = .next s.refusedReply) ∧
  RejectsMalformed 0x05 (fun h => h = 0x0500000000000000) 0

/-- R160, R162: MULF in a block with N = 2 answers OK and leaves the exact product of A and B in P; in a block of
another N it raises CV_WIDTH with every bank unchanged. -/
def Obligations.MulfCommand : Prop :=
  encode .mulf = ⟨0x0600000000000000, []⟩ ∧
  (∀ s : State, s.wf → s.cause = 0#8 → s.n = 2 →
    ∃ p : List Word, exec .mulf s = .next ({ s with p := p }.okReply []) ∧ p.length = 4 ∧
      val p = val s.a * val s.b) ∧
  (∀ s : State, s.cause = 0#8 → s.n ≠ 2 → exec .mulf s = .next (s.faultEntry 4 0x0600000000000000)) ∧
  (∀ s : State, s.cause ≠ 0#8 → exec .mulf s = .next s.refusedReply) ∧
  RejectsMalformed 0x06 (fun h => h = 0x0600000000000000) 0

/-- R180: WRA. -/
def Obligations.WraCommand : Prop :=
  (∀ (i : Nat) (v : Word), i < 65536 →
    (header (.wra i v)).toNat = 0x1000000000000000 + i ∧ (encode (.wra i v)).data = [v]) ∧
  (∀ (i : Nat) (v : Word) (s : State), s.cause = 0#8 → i < s.n →
    exec (.wra i v) s = .next ({ s with a := s.a.set i v }.okReply [])) ∧
  (∀ (i : Nat) (v : Word) (s : State), s.cause = 0#8 → s.n ≤ i →
    exec (.wra i v) s = .next (s.faultEntry 3 (header (.wra i v)))) ∧
  (∀ (i : Nat) (v : Word) (s : State), s.cause ≠ 0#8 → exec (.wra i v) s = .next s.refusedReply) ∧
  RejectsMalformed 0x10 (fun h => rsvField h = 0) 1

/-- R181: WRB. -/
def Obligations.WrbCommand : Prop :=
  (∀ (i : Nat) (v : Word), i < 65536 →
    (header (.wrb i v)).toNat = 0x1100000000000000 + i ∧ (encode (.wrb i v)).data = [v]) ∧
  (∀ (i : Nat) (v : Word) (s : State), s.cause = 0#8 → i < s.n →
    exec (.wrb i v) s = .next ({ s with b := s.b.set i v }.okReply [])) ∧
  (∀ (i : Nat) (v : Word) (s : State), s.cause = 0#8 → s.n ≤ i →
    exec (.wrb i v) s = .next (s.faultEntry 3 (header (.wrb i v)))) ∧
  (∀ (i : Nat) (v : Word) (s : State), s.cause ≠ 0#8 → exec (.wrb i v) s = .next s.refusedReply) ∧
  RejectsMalformed 0x11 (fun h => rsvField h = 0) 1

/-- R182: WRP. -/
def Obligations.WrpCommand : Prop :=
  (∀ (k : Nat) (v : Word), k < 65536 →
    (header (.wrp k v)).toNat = 0x1200000000000000 + k ∧ (encode (.wrp k v)).data = [v]) ∧
  (∀ (k : Nat) (v : Word) (s : State), s.cause = 0#8 → k < 2 * s.n →
    exec (.wrp k v) s = .next ({ s with p := s.p.set k v }.okReply [])) ∧
  (∀ (k : Nat) (v : Word) (s : State), s.cause = 0#8 → 2 * s.n ≤ k →
    exec (.wrp k v) s = .next (s.faultEntry 3 (header (.wrp k v)))) ∧
  (∀ (k : Nat) (v : Word) (s : State), s.cause ≠ 0#8 → exec (.wrp k v) s = .next s.refusedReply) ∧
  RejectsMalformed 0x12 (fun h => rsvField h = 0) 1

/-- R183: RDA answers the limb that the bank holds there. -/
def Obligations.RdaCommand : Prop :=
  (∀ i : Nat, i < 65536 → (header (.rda i)).toNat = 0x1400000000000000 + i ∧ (encode (.rda i)).data = []) ∧
  (∀ (i : Nat) (s : State), s.wf → s.cause = 0#8 → i < s.n →
    ∃ v : Word, s.a[i]? = some v ∧ exec (.rda i) s = .next (s.okReply [v])) ∧
  (∀ (i : Nat) (s : State), s.cause = 0#8 → s.n ≤ i → exec (.rda i) s = .next (s.faultEntry 3 (header (.rda i)))) ∧
  (∀ (i : Nat) (s : State), s.cause ≠ 0#8 → exec (.rda i) s = .next s.refusedReply) ∧
  RejectsMalformed 0x14 (fun h => rsvField h = 0) 0

/-- R184: RDB answers the limb that the bank holds there. -/
def Obligations.RdbCommand : Prop :=
  (∀ i : Nat, i < 65536 → (header (.rdb i)).toNat = 0x1500000000000000 + i ∧ (encode (.rdb i)).data = []) ∧
  (∀ (i : Nat) (s : State), s.wf → s.cause = 0#8 → i < s.n →
    ∃ v : Word, s.b[i]? = some v ∧ exec (.rdb i) s = .next (s.okReply [v])) ∧
  (∀ (i : Nat) (s : State), s.cause = 0#8 → s.n ≤ i → exec (.rdb i) s = .next (s.faultEntry 3 (header (.rdb i)))) ∧
  (∀ (i : Nat) (s : State), s.cause ≠ 0#8 → exec (.rdb i) s = .next s.refusedReply) ∧
  RejectsMalformed 0x15 (fun h => rsvField h = 0) 0

/-- R185: RDP answers the limb that the bank holds there. -/
def Obligations.RdpCommand : Prop :=
  (∀ k : Nat, k < 65536 → (header (.rdp k)).toNat = 0x1600000000000000 + k ∧ (encode (.rdp k)).data = []) ∧
  (∀ (k : Nat) (s : State), s.wf → s.cause = 0#8 → k < 2 * s.n →
    ∃ v : Word, s.p[k]? = some v ∧ exec (.rdp k) s = .next (s.okReply [v])) ∧
  (∀ (k : Nat) (s : State), s.cause = 0#8 → 2 * s.n ≤ k → exec (.rdp k) s = .next (s.faultEntry 3 (header (.rdp k)))) ∧
  (∀ (k : Nat) (s : State), s.cause ≠ 0#8 → exec (.rdp k) s = .next s.refusedReply) ∧
  RejectsMalformed 0x16 (fun h => rsvField h = 0) 0

/-- R186, R29: RDS answers STATUS, CONFIG or FHDR, in the fault state too, and changes nothing; another register number
raises CV_INDEX outside the fault state and is refused in it. -/
def Obligations.RdsCommand : Prop :=
  (∀ r : Nat, r < 65536 → (header (.rds r)).toNat = 0x1800000000000000 + r ∧ (encode (.rds r)).data = []) ∧
  (∀ s : State, exec (.rds 0) s = .next (s.okReply [s.cause.setWidth 64]) ∧
    exec (.rds 1) s = .next (s.okReply [configWord s.n]) ∧ exec (.rds 2) s = .next (s.okReply [s.fhdr])) ∧
  (∀ (r : Nat) (s : State), 2 < r → s.cause = 0#8 → exec (.rds r) s = .next (s.faultEntry 3 (header (.rds r)))) ∧
  (∀ (r : Nat) (s : State), 2 < r → s.cause ≠ 0#8 → exec (.rds r) s = .next s.refusedReply) ∧
  RejectsMalformed 0x18 (fun h => rsvField h = 0) 0

/-- R30: the layouts of STATUS and CONFIG, and CONFIG at the three widths that the rule writes out. -/
def Obligations.StatusAndConfigLayouts : Prop :=
  (∀ s : State, (s.register 0).extractLsb' 0 8 = s.cause ∧ (s.register 0).extractLsb' 8 56 = 0) ∧
  (∀ s : State, s.wf → ((s.register 1).extractLsb' 0 16).toNat = s.n ∧ (s.register 1).extractLsb' 16 8 = 0x40 ∧
    ((s.register 1).getLsbD 24 = true ↔ s.n = 2) ∧ (s.register 1).extractLsb' 25 39 = 0) ∧
  configWord 2 = 0x0000000001400002 ∧ configWord 4 = 0x0000000000400004 ∧ configWord 8 = 0x0000000000400008

/-! ### Reads, writes and frames -/

/-- The commands that write no bank: WMUL, ADC, RDA, RDB, RDP, RDS. R58: reads have no side effect and may be repeated;
an answer leaves every limb and both fault registers. -/
def Obligations.ReadingCommandsFrame : Prop :=
  ∀ (i : Instr) (s t : State),
    ((∃ a b, i = .wmul a b) ∨ (∃ a b c, i = .adc a b c) ∨ (∃ k, i = .rda k) ∨ (∃ k, i = .rdb k) ∨ (∃ k, i = .rdp k) ∨
      (∃ k, i = .rds k)) →
    exec i s = .next t →
    (∀ (x : Bank) (k : Nat), t.limb x k = s.limb x k) ∧ t.n = s.n ∧ t.draws = s.draws ∧ t.inbox = s.inbox ∧
    ∀ resp : Response, t.sent = s.sent ++ [resp] →
      (resp.code = 0#8 → t = { s with sent := t.sent } ∧
        exec i t = .next { t with sent := t.sent ++ [resp] })

/-- The commands that write one limb or clear or replace bank P: WRA, WRB, WRP, ZERO, MULS, MULF. Every limb outside
the one written, or outside P, is unchanged, and so are the fault registers when the command answers OK. -/
def Obligations.WritingCommandsFrame : Prop :=
  ∀ (s t : State), t.cause = 0#8 →
    (∀ k v, exec (.wra k v) s = .next t →
      (∀ (x : Bank) (j : Nat), x ≠ .A ∨ j ≠ k → t.limb x j = s.limb x j) ∧ (s.wf → t.limb .A k = v)) ∧
    (∀ k v, exec (.wrb k v) s = .next t →
      (∀ (x : Bank) (j : Nat), x ≠ .B ∨ j ≠ k → t.limb x j = s.limb x j) ∧ (s.wf → t.limb .B k = v)) ∧
    (∀ k v, exec (.wrp k v) s = .next t →
      (∀ (x : Bank) (j : Nat), x ≠ .P ∨ j ≠ k → t.limb x j = s.limb x j) ∧ (s.wf → t.limb .P k = v)) ∧
    (∀ i, i = .zero ∨ i = .muls ∨ i = .mulf → exec i s = .next t →
      ∀ (x : Bank) (j : Nat), x ≠ .P → t.limb x j = s.limb x j) ∧
    (∀ i, i = .zero ∨ i = .muls ∨ i = .mulf ∨ (∃ k v, i = .wra k v) ∨ (∃ k v, i = .wrb k v) ∨ (∃ k v, i = .wrp k v) →
      exec i s = .next t → t.n = s.n ∧ t.fhdr = s.fhdr ∧ t.draws = s.draws ∧ t.inbox = s.inbox)

/-- R60 (c): a read of a limb returns the latest write to it: after WRA i, v the command RDA i answers v, and likewise
for WRB and RDB, WRP and RDP. -/
def Obligations.ReadReturnsLatestWrite : Prop :=
  ∀ (s : State) (v : Word), s.wf → s.cause = 0#8 →
    (∀ i < s.n, ∃ t, exec (.wra i v) s = .next t ∧ exec (.rda i) t = .next (t.okReply [v])) ∧
    (∀ i < s.n, ∃ t, exec (.wrb i v) s = .next t ∧ exec (.rdb i) t = .next (t.okReply [v])) ∧
    (∀ k < 2 * s.n, ∃ t, exec (.wrp k v) s = .next t ∧ exec (.rdp k) t = .next (t.okReply [v]))

/-! ### The accumulator and the multipliers -/

/-- R125: stopping the ripple at the first step without a carry leaves the bank and the carry that the full-length
ripple over every limb from `k` up would leave. -/
def Obligations.StoppingEarlyIsRipplingToTheEnd : Prop :=
  ∀ (left k : Nat) (c : Bool) (p : List Word),
    ripple left k c p = (List.range left).foldl (fun x t => addInto x.1 (k + t) 0#64 x.2) (p, c)

/-- R127: after clearing P, a sequence of `accumulate` calls whose total is below β^(2N) leaves exactly that total, no
call leaves a carry, and the same calls in any other order leave the same bank. -/
def Obligations.OrderOfSettledCallsDoesNotMatter : Prop :=
  ∀ (n : Nat) (calls : List (Nat × Word × Word)), (∀ x ∈ calls, x.1 + 2 ≤ 2 * n) →
    (calls.map fun x => x.2.1.toNat * (2 ^ 64) ^ x.1 + x.2.2.toNat * (2 ^ 64) ^ (x.1 + 1)).sum < (2 ^ 64) ^ (2 * n) →
    val (calls.foldl (fun p x => (accumulate n x.1 x.2.1 x.2.2 p).1) (zeroedProduct n)) =
      (calls.map fun x => x.2.1.toNat * (2 ^ 64) ^ x.1 + x.2.2.toNat * (2 ^ 64) ^ (x.1 + 1)).sum ∧
    (∀ done off lo hi todo, calls = done ++ (off, lo, hi) :: todo →
      (accumulate n off lo hi (done.foldl (fun p x => (accumulate n x.1 x.2.1 x.2.2 p).1) (zeroedProduct n))).2 = false) ∧
    ∀ calls' : List (Nat × Word × Word), calls'.Perm calls →
      calls'.foldl (fun p x => (accumulate n x.1 x.2.1 x.2.2 p).1) (zeroedProduct n) =
        calls.foldl (fun p x => (accumulate n x.1 x.2.1 x.2.2 p).1) (zeroedProduct n)

/-- R143: no `accumulate` call of MULS leaves a carry at the end of bank P, and after each pair the bank holds the sum
of the products of the pairs processed. -/
def Obligations.NoAccumulateOfMulsOverflows : Prop :=
  ∀ (n : Nat) (a b : List Word), a.length = n → b.length = n →
    ∀ (done : List (Nat × Nat)) (i j : Nat) (todo : List (Nat × Nat)), rowMajor n = done ++ (i, j) :: todo →
      val (done.foldl (foldProduct n a b) (zeroedProduct n)) =
        (done.map fun x => (a.getD x.1 0#64).toNat * (b.getD x.2 0#64).toNat * (2 ^ 64) ^ (x.1 + x.2)).sum ∧
      (accumulate n (i + j) (wmul64 (a.getD i 0#64) (b.getD j 0#64)).1 (wmul64 (a.getD i 0#64) (b.getD j 0#64)).2
        (done.foldl (foldProduct n a b) (zeroedProduct n))).2 = false

/-- R144: when MULS responds OK, P is the unique vector of 2N limbs whose value is the product of A and B. -/
def Obligations.MulsIsExact : Prop :=
  ∀ s t : State, s.wf → s.cause = 0#8 → exec .muls s = .next t →
    val t.p = val s.a * val s.b ∧ t.p.length = 2 * s.n ∧
    (∀ k < 2 * s.n, (t.limb .P k).toNat = val s.a * val s.b / (2 ^ 64) ^ k % 2 ^ 64) ∧
    t.sent = s.sent ++ [⟨0#8, []⟩]

/-- R145: (e) bank P after MULS is a function of N, A and B alone; (a) commutativity, (b) identity, (c) zero absorption,
(d) for N = 2 it is what MULF leaves, and (f) the boundary product. -/
def Obligations.MulsProperties : Prop :=
  (∀ s : State, s.cause = 0#8 → exec .muls s = .next ({ s with p := schoolbook s.n s.a s.b }.okReply [])) ∧
  ∀ (n : Nat) (a b : List Word), a.length = n → b.length = n → 1 ≤ n →
    schoolbook n a b = schoolbook n b a ∧
    schoolbook n a (1#64 :: List.replicate (n - 1) 0#64) = a ++ List.replicate n 0#64 ∧
    schoolbook n a (List.replicate n 0#64) = List.replicate (2 * n) 0#64 ∧
    (∀ a0 a1 b0 b1, n = 2 → a = [a0, a1] → b = [b0, b1] → fixedFourProduct a0 a1 b0 b1 = schoolbook n a b) ∧
    schoolbook n (List.replicate n maxWord) (List.replicate n maxWord) =
      1#64 :: List.replicate (n - 1) 0#64 ++ 0xFFFFFFFFFFFFFFFE#64 :: List.replicate (n - 1) maxWord

/-- R145 (e), R141, R164: the multiplications are functions of A and B alone: two states that differ in what P holds end
with the same P. -/
def Obligations.ProductIgnoresOldContent : Prop :=
  ∀ (s : State) (p : List Word),
    (∀ t, s.cause = 0#8 → exec .muls s = .next t → exec .muls { s with p := p } = .next t) ∧
    (∀ t, s.cause = 0#8 → s.n = 2 → exec .mulf s = .next t → exec .mulf { s with p := p } = .next t)

/-- R163: for N = 2 and every content of A and B, MULF ends in the state that MULS ends in, limb for limb; it is
commutative, one is its identity, zero absorbs, and on operands of all ones it gives the largest product. -/
def Obligations.MulfEqualsMuls : Prop :=
  (∀ s : State, s.wf → s.n = 2 → exec .mulf s = exec .muls s) ∧
  (∀ a0 a1 b0 b1 : Word, fixedFourProduct a0 a1 b0 b1 = fixedFourProduct b0 b1 a0 a1) ∧
  (∀ a0 a1 : Word, fixedFourProduct a0 a1 1#64 0#64 = [a0, a1, 0#64, 0#64] ∧
    fixedFourProduct a0 a1 0#64 0#64 = [0#64, 0#64, 0#64, 0#64]) ∧
  fixedFourProduct maxWord maxWord maxWord maxWord = [1#64, 0#64, 0xFFFFFFFFFFFFFFFE#64, maxWord]

/-- R162: the last carry of MULF is always 0. -/
def Obligations.MulfLastCarryIsZero : Prop :=
  ∀ a0 a1 b0 b1 : Word,
    let x0 := adc64 (wmul64 a0 b1).1 (wmul64 a1 b0).1 false
    let x1 := adc64 (wmul64 a0 b1).2 (wmul64 a1 b0).2 x0.2
    let d1 := adc64 (wmul64 a0 b0).2 x0.1 false
    let d2 := adc64 (wmul64 a1 b1).1 x1.1 d1.2
    (adc64 (wmul64 a1 b1).2 (carryWord x1.2) d2.2).2 = false ∧
    val (fixedFourProduct a0 a1 b0 b1) = val [a0, a1] * val [b0, b1]

/-! ### Sequences -/

/-- R80: SETA v is WRA 0 to WRA N−1 with the limbs of v, and leaves the integer v in bank A; SETB likewise; both are
rejected when v does not fit. GETP is RDP 0 to RDP 2N−1 and answers bank P limb by limb; MUL is MULS. -/
def Obligations.PseudoInstructions : Prop :=
  ∀ (s : State) (v : Nat), s.wf → s.cause = 0#8 →
    (v < (2 ^ 64) ^ s.n → ∃ l, expand s.n (.seta v) = some l ∧
      l = (List.range s.n).map (fun i => .wra i (BitVec.ofNat 64 (v / (2 ^ 64) ^ i % 2 ^ 64))) ∧ val (s.driveAll l).a = v ∧ (s.driveAll l).b = s.b ∧
      (s.driveAll l).p = s.p ∧ (s.driveAll l).cause = 0#8) ∧
    (v < (2 ^ 64) ^ s.n → ∃ l, expand s.n (.setb v) = some l ∧
      l = (List.range s.n).map (fun i => .wrb i (BitVec.ofNat 64 (v / (2 ^ 64) ^ i % 2 ^ 64))) ∧ val (s.driveAll l).b = v ∧ (s.driveAll l).a = s.a ∧
      (s.driveAll l).p = s.p ∧ (s.driveAll l).cause = 0#8) ∧
    ((2 ^ 64) ^ s.n ≤ v → expand s.n (.seta v) = none ∧ expand s.n (.setb v) = none) ∧
    (∃ l, expand s.n .getp = some l ∧ l = (List.range (2 * s.n)).map (fun k => .rdp k) ∧ s.driveAll l = { s with sent := s.sent ++ s.p.map fun w => ⟨0#8, [w]⟩ }) ∧
    expand s.n .mul = some [.muls]

/-- R81: the host-driven sequence ZERO, then RDA, RDB, WMUL, ACC for each pair in row-major order, leaves the same banks
as MULS. -/
def Obligations.HostDrivenSchoolbook : Prop :=
  ∀ s : State, s.wf → s.cause = 0#8 →
    ∃ t, exec .muls s = .next t ∧ s.hostSchoolbook.p = t.p ∧ s.hostSchoolbook.a = t.a ∧ s.hostSchoolbook.b = t.b ∧
      s.hostSchoolbook.cause = 0#8

/-- R147: the operation sequence of MULS has N² `wmul` entries and N³ + N² `adc` entries, and interpreting it leaves the
bank P of MULS. -/
def Obligations.OperationSequenceOfMuls : Prop :=
  (∀ n : Nat, ((mulsSequence n).countP SeqOp.isWmul) = n ^ 2 ∧
    ((mulsSequence n).countP SeqOp.isAdc) = n ^ 3 + n ^ 2) ∧
  (∀ (n : Nat) (a b : List Word) (t : SeqState),
    ((mulsSequence n).foldl (runSeqOp n a b) t).p = schoolbook n a b)

/-- R165: the operation sequence of MULF is ten entries after the zeroing, and interpreting it leaves the bank P of MULF,
from any bank with the zeroing and from any bank of four limbs without it. That the zeroing is an entry is the model's
choice (DESIGN CHOICE, log 16). -/
def Obligations.OperationSequenceOfMulf : Prop :=
  mulfSequence = .zero :: mulfSequence.tail ∧ mulfSequence.tail.length = 10 ∧
  (∀ (a b : List Word) (t : FixedState), t.p.length = 4 →
    (mulfSequence.tail.foldl (runFixedOp a b) t).p =
      fixedFourProduct (a.getD 0 0#64) (a.getD 1 0#64) (b.getD 0 0#64) (b.getD 1 0#64)) ∧
  ∀ (a b : List Word) (t : FixedState),
    (mulfSequence.foldl (runFixedOp a b) t).p =
      fixedFourProduct (a.getD 0 0#64) (a.getD 1 0#64) (b.getD 0 0#64) (b.getD 1 0#64)
end

