-- ==== Sys2Proof/Laws/Arithmetic.lean ====
section
/-! SUPPORT. The two primitives over the integers (`40_widening_multiplier.md` R100, `41_carry_chain_adder.md` R110) and
the value of a limb vector (`00_scope.md` R15). -/

namespace Sys2Proof.Machine

theorem word_lt (x : Word) : x.toNat < beta := x.isLt

/-- `wmul64` is exact: a·b = hi·β + lo. -/
theorem wmul64_exact (a b : Word) :
    a.toNat * b.toNat = (wmul64 a b).2.toNat * beta + (wmul64 a b).1.toNat := by
  have hlt : a.toNat * b.toNat < beta * beta :=
    Nat.mul_lt_mul_of_lt_of_le (word_lt a) (word_lt b).le (by decide)
  have hdiv : a.toNat * b.toNat / beta < beta := Nat.div_lt_of_lt_mul hlt
  have hlo : (wmul64 a b).1.toNat = a.toNat * b.toNat % beta := by simp [wmul64]
  have hhi : (wmul64 a b).2.toNat = a.toNat * b.toNat / beta := by
    simp only [wmul64, BitVec.toNat_ofNat]
    exact Nat.mod_eq_of_lt hdiv
  rw [hlo, hhi]
  exact (Nat.div_add_mod' _ _).symm

/-- `adc64` is exact: a + b + carryIn = carryOut·β + sum. -/
theorem adc64_exact (a b : Word) (c : Bool) :
    a.toNat + b.toNat + c.toNat = (adc64 a b c).2.toNat * beta + (adc64 a b c).1.toNat := by
  have ha := word_lt a
  have hb := word_lt b
  have hc : c.toNat ≤ 1 := Bool.toNat_le c
  have hs : (adc64 a b c).1.toNat = (a.toNat + b.toNat + c.toNat) % beta := by simp [adc64]
  rw [hs]
  by_cases h : beta ≤ a.toNat + b.toNat + c.toNat
  · have : (adc64 a b c).2 = true := by simp [adc64, h]
    rw [this]; simp only [Bool.toNat_true, beta] at *; omega
  · have : (adc64 a b c).2 = false := by simp [adc64, h]
    rw [this]; simp only [Bool.toNat_false, beta] at *; omega

/-- Adding nothing changes nothing (R113 (b)). -/
@[simp] theorem adc64_zero (a : Word) : adc64 a 0#64 false = (a, false) := by
  have h := word_lt a
  simp [adc64]
  omega

@[simp] theorem carryWord_toNat (c : Bool) : (carryWord c).toNat = c.toNat := by cases c <;> rfl

@[simp] theorem val_nil : val [] = 0 := rfl

@[simp] theorem val_cons (x : Word) (xs : List Word) : val (x :: xs) = x.toNat + beta * val xs := rfl

/-- A vector of n limbs has a value below β^n. -/
theorem val_lt (xs : List Word) : val xs < beta ^ xs.length := by
  induction xs with
  | nil => simp
  | cons x xs ih =>
    have hx := word_lt x
    rw [val_cons, List.length_cons, Nat.pow_succ']
    have : beta * val xs + beta ≤ beta * beta ^ xs.length := by
      rw [← Nat.mul_succ]; exact Nat.mul_le_mul_left _ ih
    omega

/-- Writing one limb changes the value by that limb's term. -/
theorem val_set (xs : List Word) (k : Nat) (v : Word) (h : k < xs.length) :
    val (xs.set k v) + beta ^ k * (xs.getD k 0#64).toNat = val xs + beta ^ k * v.toNat := by
  induction xs generalizing k with
  | nil => simp at h
  | cons x xs ih =>
    cases k with
    | zero => simp; omega
    | succ k =>
      have := ih k (by simpa using h)
      simp only [List.set_cons_succ, val_cons, List.getD_cons_succ, Nat.pow_succ']
      have h2 : beta * (val (xs.set k v) + beta ^ k * (xs.getD k 0#64).toNat) = beta * (val xs + beta ^ k * v.toNat) := by
        rw [this]
      simp only [Nat.mul_add, ← Nat.mul_assoc] at h2
      omega

@[simp] theorem val_replicate_zero (k : Nat) : val (List.replicate k 0#64) = 0 := by
  induction k with
  | zero => rfl
  | succ k ih => simp [List.replicate_succ, ih]

theorem val_append (xs ys : List Word) : val (xs ++ ys) = val xs + beta ^ xs.length * val ys := by
  induction xs with
  | nil => simp
  | cons x xs ih =>
    simp only [List.cons_append, val_cons, List.length_cons, ih, Nat.pow_succ', Nat.mul_add, Nat.mul_assoc]
    omega

/-- Two vectors of one length with one value are equal limb for limb (R15). -/
theorem val_injective {xs ys : List Word} (hl : xs.length = ys.length) (hv : val xs = val ys) : xs = ys := by
  induction xs generalizing ys with
  | nil => simpa using hl.symm
  | cons x xs ih =>
    cases ys with
    | nil => simp at hl
    | cons y ys =>
      have hx := word_lt x
      have hy := word_lt y
      simp only [val_cons] at hv
      have h1 : x.toNat = y.toNat := by
        have := congrArg (· % beta) hv
        simpa [Nat.mod_eq_of_lt hx, Nat.mod_eq_of_lt hy] using this
      have h2 : val xs = val ys := by
        rw [h1] at hv
        exact Nat.eq_of_mul_eq_mul_left (by decide : 0 < beta) (by omega)
      rw [BitVec.eq_of_toNat_eq h1, ih (by simpa using hl) h2]

/-- Limb `k` is digit `k` of the value in base β (R15); a limb that is not there counts as 0. -/
theorem getD_toNat (p : List Word) (k : Nat) : (p.getD k 0#64).toNat = val p / beta ^ k % beta := by
  induction p generalizing k with
  | nil => simp
  | cons x xs ih =>
    have hx := word_lt x
    cases k with
    | zero => simp [Nat.mod_eq_of_lt hx]
    | succ k =>
      rw [List.getD_cons_succ, ih, val_cons, Nat.pow_succ', ← Nat.div_div_eq_div_mul,
        Nat.add_mul_div_left _ _ (by decide), Nat.div_eq_of_lt hx, Nat.zero_add]

end Sys2Proof.Machine
end

