-- ==== Sys2Proof/Laws/Accumulate.lean ====
section
/-! SUPPORT. What `accumulate` does (`42_product_accumulator.md` R122), said once: the length, the exact value with the
last carry, and the limbs it leaves. -/

namespace Sys2Proof.Machine

@[simp] theorem addInto_length (p : List Word) (k : Nat) (v : Word) (c : Bool) :
    (addInto p k v c).1.length = p.length := by simp [addInto]

/-- One step through the bank is exact: the carry is worth β^(k+1). -/
theorem addInto_val (p : List Word) (k : Nat) (v : Word) (c : Bool) (h : k < p.length) :
    val (addInto p k v c).1 + beta ^ (k + 1) * (addInto p k v c).2.toNat =
      val p + beta ^ k * v.toNat + beta ^ k * c.toNat := by
  have h1 := val_set p k (adc64 (p.getD k 0#64) v c).1 h
  have h2 := congrArg (beta ^ k * ·) (adc64_exact (p.getD k 0#64) v c)
  simp only [Nat.mul_add] at h2
  simp only [addInto, Nat.pow_succ]
  rw [Nat.mul_comm (adc64 (p.getD k 0#64) v c).2.toNat, ← Nat.mul_assoc] at h2
  omega

theorem addInto_getD_of_ne (p : List Word) (k j : Nat) (v : Word) (c : Bool) (h : k ≠ j) :
    (addInto p k v c).1.getD j 0#64 = p.getD j 0#64 := by
  simp [addInto, List.getD_eq_getElem?_getD, h]

@[simp] theorem ripple_false (left k : Nat) (p : List Word) : ripple left k false p = (p, false) := by
  cases left <;> rfl

@[simp] theorem ripple_length (left k : Nat) (c : Bool) (p : List Word) : (ripple left k c p).1.length = p.length := by
  induction left generalizing k c p with
  | zero => rfl
  | succ left ih => cases c <;> simp [ripple, ih]

/-- The ripple is exact: a carry left at the end is worth β^(k+left). -/
theorem ripple_val (left k : Nat) (c : Bool) (p : List Word) (h : k + left = p.length) :
    val (ripple left k c p).1 + beta ^ p.length * (ripple left k c p).2.toNat = val p + beta ^ k * c.toNat := by
  induction left generalizing k c p with
  | zero => simp only [ripple, ← h]; rfl
  | succ left ih =>
    cases c with
    | false => simp [ripple]
    | true =>
      have h1 := addInto_val p k 0#64 true (by omega)
      have h2 := ih (k + 1) (addInto p k 0#64 true).2 (addInto p k 0#64 true).1 (by simp; omega)
      simp only [addInto_length] at h2
      simp only [ripple]
      simp at h1
      rw [h2]
      simpa using h1

theorem ripple_getD_of_lt (left k j : Nat) (c : Bool) (p : List Word) (h : j < k) :
    (ripple left k c p).1.getD j 0#64 = p.getD j 0#64 := by
  induction left generalizing k c p with
  | zero => rfl
  | succ left ih =>
    cases c with
    | false => rfl
    | true =>
      simp only [ripple]
      rw [ih _ _ _ (by omega), addInto_getD_of_ne _ _ _ _ _ (by omega)]

@[simp] theorem accumulate_length (n off : Nat) (lo hi : Word) (p : List Word) :
    (accumulate n off lo hi p).1.length = p.length := by simp [accumulate]

/-- `accumulate` is exact: the bank after it and the last carry make the sum (R123 and R124 together). -/
theorem accumulate_val (n off : Nat) (lo hi : Word) (p : List Word) (hp : p.length = 2 * n) (ho : off + 2 ≤ 2 * n) :
    val (accumulate n off lo hi p).1 + beta ^ (2 * n) * (accumulate n off lo hi p).2.toNat =
      val p + lo.toNat * beta ^ off + hi.toNat * beta ^ (off + 1) := by
  have h1 := addInto_val p off lo false (by omega)
  have h2 := addInto_val (addInto p off lo false).1 (off + 1) hi (addInto p off lo false).2 (by simp; omega)
  have h3 := ripple_val (2 * n - (off + 2)) (off + 2) (addInto (addInto p off lo false).1 (off + 1) hi (addInto p off lo false).2).2
    (addInto (addInto p off lo false).1 (off + 1) hi (addInto p off lo false).2).1 (by simp; omega)
  simp only [addInto_length, hp] at h3
  simp only [Bool.toNat_false, Nat.mul_zero, Nat.add_zero] at h1
  simp only [accumulate]
  rw [Nat.mul_comm lo.toNat, Nat.mul_comm hi.toNat, h3]
  rw [show off + 1 + 1 = off + 2 from rfl] at h2
  omega

/-- No carry is left exactly when the total is below β^(2N), and then the bank holds the total. -/
theorem accumulate_settles (n off : Nat) (lo hi : Word) (p : List Word) (hp : p.length = 2 * n) (ho : off + 2 ≤ 2 * n) :
    ((accumulate n off lo hi p).2 = false ↔ val p + lo.toNat * beta ^ off + hi.toNat * beta ^ (off + 1) < beta ^ (2 * n)) ∧
    ((accumulate n off lo hi p).2 = false →
      val (accumulate n off lo hi p).1 = val p + lo.toNat * beta ^ off + hi.toNat * beta ^ (off + 1)) := by
  have h := accumulate_val n off lo hi p hp ho
  have hlt := val_lt (accumulate n off lo hi p).1
  rw [accumulate_length, hp] at hlt
  cases hc : (accumulate n off lo hi p).2 <;> rw [hc] at h <;> simp at h ⊢ <;> omega

/-- `accumulate` leaves the limbs below the offset. -/
theorem accumulate_getD_of_lt (n off j : Nat) (lo hi : Word) (p : List Word) (h : j < off) :
    (accumulate n off lo hi p).1.getD j 0#64 = p.getD j 0#64 := by
  simp only [accumulate]
  rw [ripple_getD_of_lt _ _ _ _ _ (by omega), addInto_getD_of_ne _ _ _ _ _ (by omega),
    addInto_getD_of_ne _ _ _ _ _ (by omega)]

@[simp] theorem zeroedProduct_length (n : Nat) : (zeroedProduct n).length = 2 * n := by simp [zeroedProduct]

@[simp] theorem val_zeroedProduct (n : Nat) : val (zeroedProduct n) = 0 := by simp [zeroedProduct]

theorem foldProduct_length (n : Nat) (a b p : List Word) (ij : Nat × Nat) : (foldProduct n a b p ij).length = p.length := by
  simp [foldProduct]

@[simp] theorem schoolbook_length (n : Nat) (a b : List Word) : (schoolbook n a b).length = 2 * n := by
  have : ∀ (l : List (Nat × Nat)) (p : List Word), (l.foldl (foldProduct n a b) p).length = p.length := by
    intro l
    induction l with
    | nil => intro p; rfl
    | cons x l ih => intro p; rw [List.foldl_cons, ih, foldProduct_length]
  rw [schoolbook, this, zeroedProduct_length]

/-- The pairs of the loop are exactly those of two indices below N. -/
theorem mem_rowMajor {n : Nat} {ij : Nat × Nat} : ij ∈ rowMajor n ↔ ij.1 < n ∧ ij.2 < n := by
  obtain ⟨i, j⟩ := ij
  simp [rowMajor]

end Sys2Proof.Machine
end

