-- ==== Sys2Proof/Laws/State.lean ====
section
/-! SUPPORT. What each named operation does to each field of the state: one lemma per field per operation, so that no
proof unfolds a record update. -/

namespace Sys2Proof.Machine

section
variable (s : State) (code : BitVec 8) (results : List Word)

@[simp] theorem State.respond_n : (s.respond code results).n = s.n := rfl
@[simp] theorem State.respond_a : (s.respond code results).a = s.a := rfl
@[simp] theorem State.respond_b : (s.respond code results).b = s.b := rfl
@[simp] theorem State.respond_p : (s.respond code results).p = s.p := rfl
@[simp] theorem State.respond_cause : (s.respond code results).cause = s.cause := rfl
@[simp] theorem State.respond_fhdr : (s.respond code results).fhdr = s.fhdr := rfl
@[simp] theorem State.respond_draws : (s.respond code results).draws = s.draws := rfl
@[simp] theorem State.respond_inbox : (s.respond code results).inbox = s.inbox := rfl
@[simp] theorem State.respond_sent : (s.respond code results).sent = s.sent ++ [⟨code, results⟩] := rfl

end

section
variable (s : State) (results : List Word)

@[simp] theorem State.ok_n : (s.ok results).n = s.n := rfl
@[simp] theorem State.ok_a : (s.ok results).a = s.a := rfl
@[simp] theorem State.ok_b : (s.ok results).b = s.b := rfl
@[simp] theorem State.ok_p : (s.ok results).p = s.p := rfl
@[simp] theorem State.ok_cause : (s.ok results).cause = s.cause := rfl
@[simp] theorem State.ok_fhdr : (s.ok results).fhdr = s.fhdr := rfl
@[simp] theorem State.ok_draws : (s.ok results).draws = s.draws := rfl
@[simp] theorem State.ok_inbox : (s.ok results).inbox = s.inbox := rfl
@[simp] theorem State.ok_sent : (s.ok results).sent = s.sent ++ [⟨0, results⟩] := rfl

end

section
variable (s : State)

@[simp] theorem State.refuse_n : (s.refuse).n = s.n := rfl
@[simp] theorem State.refuse_a : (s.refuse).a = s.a := rfl
@[simp] theorem State.refuse_b : (s.refuse).b = s.b := rfl
@[simp] theorem State.refuse_p : (s.refuse).p = s.p := rfl
@[simp] theorem State.refuse_cause : (s.refuse).cause = s.cause := rfl
@[simp] theorem State.refuse_fhdr : (s.refuse).fhdr = s.fhdr := rfl
@[simp] theorem State.refuse_draws : (s.refuse).draws = s.draws := rfl
@[simp] theorem State.refuse_inbox : (s.refuse).inbox = s.inbox := rfl
@[simp] theorem State.refuse_sent : (s.refuse).sent = s.sent ++ [⟨6, []⟩] := rfl

end

section
variable (s : State) (p : List Word)

@[simp] theorem State.setProduct_n : (s.setProduct p).n = s.n := rfl
@[simp] theorem State.setProduct_a : (s.setProduct p).a = s.a := rfl
@[simp] theorem State.setProduct_b : (s.setProduct p).b = s.b := rfl
@[simp] theorem State.setProduct_cause : (s.setProduct p).cause = s.cause := rfl
@[simp] theorem State.setProduct_fhdr : (s.setProduct p).fhdr = s.fhdr := rfl
@[simp] theorem State.setProduct_draws : (s.setProduct p).draws = s.draws := rfl
@[simp] theorem State.setProduct_inbox : (s.setProduct p).inbox = s.inbox := rfl
@[simp] theorem State.setProduct_sent : (s.setProduct p).sent = s.sent := rfl
@[simp] theorem State.setProduct_p : (s.setProduct p).p = p := rfl

end

section
variable (s : State)

@[simp] theorem State.drawProduct_n : (s.drawProduct).n = s.n := rfl
@[simp] theorem State.drawProduct_a : (s.drawProduct).a = s.a := rfl
@[simp] theorem State.drawProduct_b : (s.drawProduct).b = s.b := rfl
@[simp] theorem State.drawProduct_cause : (s.drawProduct).cause = s.cause := rfl
@[simp] theorem State.drawProduct_fhdr : (s.drawProduct).fhdr = s.fhdr := rfl
@[simp] theorem State.drawProduct_inbox : (s.drawProduct).inbox = s.inbox := rfl
@[simp] theorem State.drawProduct_sent : (s.drawProduct).sent = s.sent := rfl
@[simp] theorem State.drawProduct_p : (s.drawProduct).p = (List.range (2 * s.n)).map (Config.overflowLimb s.draws) := rfl
@[simp] theorem State.drawProduct_draws : (s.drawProduct).draws = s.draws + 1 := rfl

end

section
variable (s : State)

@[simp] theorem State.resetBlock_n : (s.resetBlock).n = s.n := rfl
@[simp] theorem State.resetBlock_inbox : (s.resetBlock).inbox = s.inbox := rfl
@[simp] theorem State.resetBlock_sent : (s.resetBlock).sent = s.sent := rfl
@[simp] theorem State.resetBlock_a : (s.resetBlock).a = (List.range s.n).map (Config.resetLimb s.draws .A) := rfl
@[simp] theorem State.resetBlock_b : (s.resetBlock).b = (List.range s.n).map (Config.resetLimb s.draws .B) := rfl
@[simp] theorem State.resetBlock_p : (s.resetBlock).p = (List.range (2 * s.n)).map (Config.resetLimb s.draws .P) := rfl
@[simp] theorem State.resetBlock_cause : (s.resetBlock).cause = 0 := rfl
@[simp] theorem State.resetBlock_fhdr : (s.resetBlock).fhdr = 0 := rfl
@[simp] theorem State.resetBlock_draws : (s.resetBlock).draws = s.draws + 1 := rfl

end

section
variable (s : State) (x : Bank) (i : Nat) (v : Word)

@[simp] theorem State.setLimb_n : (s.setLimb x i v).n = s.n := by cases x <;> rfl
@[simp] theorem State.setLimb_cause : (s.setLimb x i v).cause = s.cause := by cases x <;> rfl
@[simp] theorem State.setLimb_fhdr : (s.setLimb x i v).fhdr = s.fhdr := by cases x <;> rfl
@[simp] theorem State.setLimb_draws : (s.setLimb x i v).draws = s.draws := by cases x <;> rfl
@[simp] theorem State.setLimb_inbox : (s.setLimb x i v).inbox = s.inbox := by cases x <;> rfl
@[simp] theorem State.setLimb_sent : (s.setLimb x i v).sent = s.sent := by cases x <;> rfl
@[simp] theorem State.setLimb_A_a : (s.setLimb .A i v).a = s.a.set i v := rfl
@[simp] theorem State.setLimb_A_b : (s.setLimb .A i v).b = s.b := rfl
@[simp] theorem State.setLimb_A_p : (s.setLimb .A i v).p = s.p := rfl
@[simp] theorem State.setLimb_B_a : (s.setLimb .B i v).a = s.a := rfl
@[simp] theorem State.setLimb_B_b : (s.setLimb .B i v).b = s.b.set i v := rfl
@[simp] theorem State.setLimb_B_p : (s.setLimb .B i v).p = s.p := rfl
@[simp] theorem State.setLimb_P_a : (s.setLimb .P i v).a = s.a := rfl
@[simp] theorem State.setLimb_P_b : (s.setLimb .P i v).b = s.b := rfl
@[simp] theorem State.setLimb_P_p : (s.setLimb .P i v).p = s.p.set i v := rfl

end

section
variable (s : State) (c : Cause) (hdr : Word)

@[simp] theorem State.raiseFault_n : (s.raiseFault c hdr).n = s.n := by cases c <;> rfl
@[simp] theorem State.raiseFault_a : (s.raiseFault c hdr).a = s.a := by cases c <;> rfl
@[simp] theorem State.raiseFault_b : (s.raiseFault c hdr).b = s.b := by cases c <;> rfl
@[simp] theorem State.raiseFault_inbox : (s.raiseFault c hdr).inbox = s.inbox := by cases c <;> rfl
@[simp] theorem State.raiseFault_cause : (s.raiseFault c hdr).cause = causeCode c := rfl
@[simp] theorem State.raiseFault_fhdr : (s.raiseFault c hdr).fhdr = hdr := rfl
@[simp] theorem State.raiseFault_sent : (s.raiseFault c hdr).sent = s.sent ++ [⟨causeCode c, []⟩] := by cases c <;> rfl

/-- Fault entry for the causes found before a command touches a bank writes CAUSE and FHDR and nothing else. -/
theorem State.raiseFault_of_ne (h : c ≠ .accOverflow) : s.raiseFault c hdr =
    { s with cause := causeCode c, fhdr := hdr, sent := s.sent ++ [⟨causeCode c, []⟩] } := by
  cases c <;> first | rfl | exact absurd rfl h

/-- Fault entry for ACC_OVERFLOW draws bank P as well. -/
theorem State.raiseFault_accOverflow : s.raiseFault .accOverflow hdr =
    { s with
      p := (List.range (2 * s.n)).map (Config.overflowLimb s.draws), draws := s.draws + 1
      cause := 5, fhdr := hdr, sent := s.sent ++ [⟨5, []⟩] } := rfl

end

section
variable (s : State) (i : Nat)

@[simp] theorem State.bank_A : s.bank .A = s.a := rfl
@[simp] theorem State.bank_B : s.bank .B = s.b := rfl
@[simp] theorem State.bank_P : s.bank .P = s.p := rfl
@[simp] theorem State.limb_A : s.limb .A i = s.a.getD i 0#64 := rfl
@[simp] theorem State.limb_B : s.limb .B i = s.b.getD i 0#64 := rfl
@[simp] theorem State.limb_P : s.limb .P i = s.p.getD i 0#64 := rfl
@[simp] theorem State.register_status : s.register 0 = statusWord s.cause := rfl
@[simp] theorem State.register_config : s.register 1 = configWord s.n := rfl
@[simp] theorem State.register_fhdr : s.register 2 = s.fhdr := rfl

/-- The fault state, said of CAUSE. -/
@[simp] theorem State.faulted_iff : s.faulted = true ↔ s.cause ≠ 0#8 := by simp [State.faulted]

theorem State.faulted_eq_false_iff : s.faulted = false ↔ s.cause = 0#8 := by simp [State.faulted]

end

end Sys2Proof.Machine
end

