-- ==== Sys2Proof/Laws/Ops.lean ====
section
/-! SUPPORT. What each shared operation can do, said once, and that each keeps the invariant. -/

namespace Sys2Proof.Machine

section
variable (s : State)

/-- Everything `reject` can do. -/
theorem State.reject_cases (c : Cause) (hdr : Word) :
    (s.cause ≠ 0#8 ∧ s.reject c hdr = s.refuse) ∨ (s.cause = 0#8 ∧ s.reject c hdr = s.raiseFault c hdr) := by
  unfold State.reject
  by_cases h : s.cause = 0#8 <;> simp_all

/-- Everything `commence` can do. -/
theorem State.commence_cases (hdr : Word) (check : Option Cause) (run : State → State) :
    (s.cause ≠ 0#8 ∧ s.commence hdr check run = s.refuse) ∨
    (∃ c, s.cause = 0#8 ∧ check = some c ∧ s.commence hdr check run = s.raiseFault c hdr) ∨
    (s.cause = 0#8 ∧ check = none ∧ s.commence hdr check run = run s) := by
  unfold State.commence
  by_cases h : s.cause = 0#8 <;> cases check <;> simp_all

@[simp] theorem State.commence_of_faulted {hdr : Word} {check : Option Cause} {run : State → State} (h : s.cause ≠ 0#8) :
    s.commence hdr check run = s.refuse := by
  unfold State.commence
  rw [if_pos (s.faulted_iff.mpr h)]

@[simp] theorem State.commence_of_check {hdr : Word} {c : Cause} {run : State → State} (h : s.cause = 0#8) :
    s.commence hdr (some c) run = s.raiseFault c hdr := by
  simp [State.commence, h]

@[simp] theorem State.commence_of_none {hdr : Word} {run : State → State} (h : s.cause = 0#8) :
    s.commence hdr none run = run s := by
  simp [State.commence, h]

/-- A limb just written reads as written. -/
theorem State.limb_setLimb_self (x : Bank) (i : Nat) (v : Word) (h : i < (s.bank x).length) :
    (s.setLimb x i v).limb x i = v := by
  cases x <;> simp_all [List.getD_eq_getElem?_getD]

/-- A write to one limb leaves every other limb of every bank. -/
theorem State.limb_setLimb_of_ne (x y : Bank) (i k : Nat) (v : Word) (h : x ≠ y ∨ i ≠ k) :
    (s.setLimb x i v).limb y k = s.limb y k := by
  cases x <;> cases y <;> simp_all [List.getD_eq_getElem?_getD]

end

section
variable {s : State}

theorem checkOperandLimb_eq_none {n i : Nat} : checkOperandLimb n i = none ↔ i < n := by simp [checkOperandLimb]
theorem checkProductLimb_eq_none {n k : Nat} : checkProductLimb n k = none ↔ k < 2 * n := by simp [checkProductLimb]
theorem checkOffset_eq_none {n off : Nat} : checkOffset n off = none ↔ off + 2 ≤ 2 * n := by simp [checkOffset]
theorem checkRegister_eq_none {r : Nat} : checkRegister r = none ↔ r ≤ 2 := by simp [checkRegister]
theorem checkWidth_eq_none {n : Nat} : checkWidth n = none ↔ n = 2 := by simp [checkWidth]

/-- The causes' codes are 1 to 5. -/
theorem causeCode_range (c : Cause) : 1 ≤ (causeCode c).toNat ∧ (causeCode c).toNat ≤ 5 := by cases c <;> decide

theorem causeCode_ne_zero (c : Cause) : causeCode c ≠ 0 := by cases c <;> decide

theorem State.Inv.respond (h : s.Inv) (code : BitVec 8) (results : List Word) : (s.respond code results).Inv := h

theorem State.Inv.ok (h : s.Inv) (results : List Word) : (s.ok results).Inv := h

theorem State.Inv.refuse (h : s.Inv) : s.refuse.Inv := h

theorem State.Inv.setLimb (h : s.Inv) (x : Bank) (i : Nat) (v : Word) : (s.setLimb x i v).Inv := by
  obtain ⟨⟨h1, h2, h3, h4, h5⟩, h6⟩ := h
  cases x <;> exact ⟨⟨h1, h2, by simpa, by simpa, by simpa⟩, h6⟩

theorem State.Inv.setProduct (h : s.Inv) {p : List Word} (hp : p.length = 2 * s.n) : (s.setProduct p).Inv := by
  obtain ⟨⟨h1, h2, h3, h4, -⟩, h6⟩ := h
  exact ⟨⟨h1, h2, h3, h4, hp⟩, h6⟩

theorem State.Inv.raiseFault (h : s.Inv) (c : Cause) (hdr : Word) : (s.raiseFault c hdr).Inv := by
  obtain ⟨h1, h2, h3, h4, h5⟩ := h.1
  refine ⟨⟨by simpa, by simpa, by simpa, by simpa, ?_⟩, (causeCode_range c).2, fun h0 => absurd h0 (causeCode_ne_zero c)⟩
  by_cases hc : c = .accOverflow
  · subst hc; simp [State.raiseFault_accOverflow]
  · simpa [State.raiseFault_of_ne s c hdr hc] using h5

theorem State.Inv.resetBlock (h : s.Inv) : s.resetBlock.Inv := by
  obtain ⟨⟨h1, h2, -⟩, -⟩ := h
  exact ⟨⟨h1, h2, by simp, by simp, by simp⟩, by simp, fun _ => rfl⟩

end

end Sys2Proof.Machine
end

