-- ==== Sys2Proof/Tests/Slice0.lean ====
section
/-! SUPPORT. Small tests: ill-formed terms, words written out from the encodings of the spec, one-step results from the
spec's vectors (`95_test_vectors.md`), and for every statement with hypotheses a state and operands that meet them. -/

namespace Sys2Proof.Tests

open Sys2Proof.Machine

/-- A block outside the fault state, with nothing on the port. -/
def block (n : Nat) (a b p : List Word) : State :=
  ⟨n, a, b, p, 0#8, 0#64, 1, [], []⟩

/-- An N = 2 block with operands and P to test with. -/
def two : State := block 2 [0xF, 0] [0x10, 0] [1, 2, 3, 4]

/-- The N = 2 block with every limb MAX. -/
def full : State := block 2 [maxWord, maxWord] [maxWord, maxWord] [maxWord, maxWord, maxWord, maxWord]

/-- The block after V-A3: in the fault state, with CAUSE 0x05. -/
def broken : State := { two with cause := 5#8, fhdr := 0x0400000000000000 }

/-- The block with one request on the port. -/
def asked (s : State) (r : Request) : State := { s with inbox := [.request r] }

/-- A part of the next state, if there is one. -/
def seen {α : Type} (f : State → α) (r : Result) : Option α :=
  match r with
  | .next t => some (f t)
  | .fault x => nomatch x
  | .refused _ => none

/-- The beats of the latest response. -/
def answer (s : State) : List Word :=
  match s.sent.getLast? with
  | some r => r.beats
  | none => []

/-! ### Ill-formed terms -/

theorem test_acc_offset_too_wide : Instr.wellFormed (.acc 65536 0 0) = false := by decide
theorem test_wra_index_too_wide : Instr.wellFormed (.wra 65536 0) = false := by decide
theorem test_wrb_index_too_wide : Instr.wellFormed (.wrb 65536 0) = false := by decide
theorem test_wrp_index_too_wide : Instr.wellFormed (.wrp 65536 0) = false := by decide
theorem test_rda_index_too_wide : Instr.wellFormed (.rda 65536) = false := by decide
theorem test_rdb_index_too_wide : Instr.wellFormed (.rdb 65536) = false := by decide
theorem test_rdp_index_too_wide : Instr.wellFormed (.rdp 65536) = false := by decide
theorem test_rds_register_too_wide : Instr.wellFormed (.rds 65536) = false := by decide

/-! ### Decoding: the words are written out field by field, `opc`, `rsv0`, `idx` (R71 to R73) -/

/-- A header beat written as its three fields. -/
def fields (opc : BitVec 8) (rsv0 : BitVec 40) (idx : BitVec 16) : Word := opc ++ (rsv0 ++ idx)

theorem test_decode_wmul : decode ⟨fields 0b00000001 0 0, [3, 4]⟩ = .ok (.wmul 3 4) := by rfl
theorem test_decode_adc : decode ⟨fields 0b00000010 0 0b0000000000000000, [3, 4]⟩ = .ok (.adc 3 4 false) := by rfl
theorem test_decode_adc_carry : decode ⟨fields 0b00000010 0 0b0000000000000001, [3, 4]⟩ = .ok (.adc 3 4 true) := by rfl
theorem test_decode_zero : decode ⟨fields 0b00000011 0 0, []⟩ = .ok .zero := by rfl
theorem test_decode_acc : decode ⟨fields 0b00000100 0 0b0000000000000010, [3, 4]⟩ = .ok (.acc 2 3 4) := by rfl
theorem test_decode_muls : decode ⟨fields 0b00000101 0 0, []⟩ = .ok .muls := by rfl
theorem test_decode_mulf : decode ⟨fields 0b00000110 0 0, []⟩ = .ok .mulf := by rfl
theorem test_decode_wra : decode ⟨fields 0b00010000 0 0b1000000000000001, [9]⟩ = .ok (.wra 32769 9) := by rfl
theorem test_decode_wrb : decode ⟨fields 0b00010001 0 0b0000000000000001, [9]⟩ = .ok (.wrb 1 9) := by rfl
theorem test_decode_wrp : decode ⟨fields 0b00010010 0 0b0000000000000011, [9]⟩ = .ok (.wrp 3 9) := by rfl
theorem test_decode_rda : decode ⟨fields 0b00010100 0 0b0000000000000001, []⟩ = .ok (.rda 1) := by rfl
theorem test_decode_rdb : decode ⟨fields 0b00010101 0 0b0000000000000001, []⟩ = .ok (.rdb 1) := by rfl
/-- V-D13. -/
theorem test_decode_rdp : decode ⟨fields 0b00010110 0 0b1111111111111111, []⟩ = .ok (.rdp 65535) := by rfl
theorem test_decode_rds : decode ⟨fields 0b00011000 0 0b0000000000000010, []⟩ = .ok (.rds 2) := by rfl
/-- V-D4. -/
theorem test_decode_muls_index : decode ⟨0x0500000000000001, []⟩ = .error .illegal := by rfl
/-- V-D5. -/
theorem test_decode_acc_reserved : decode ⟨0x0400010000000000, [0, 0]⟩ = .error .illegal := by rfl
/-- V-D6. -/
theorem test_decode_adc_bit_one : decode ⟨0x0200000000000002, [0, 0]⟩ = .error .illegal := by rfl
/-- V-D8: `opc` 0x13 lies between WRP and RDA and is no command. -/
theorem test_decode_gap : decode ⟨0x1300000000000000, []⟩ = .error .illegal := by rfl
/-- V-D11. -/
theorem test_decode_muls_beat : decode ⟨0x0500000000000000, [0]⟩ = .error .wrongLength := by rfl
/-- V-D12: the header is judged before the number of beats. -/
theorem test_decode_illegal_first : decode ⟨0, [1, 2, 3]⟩ = .error .illegal := by rfl
/-- The table's numbering: the header is bits 63:0. -/
theorem test_table_word : decodeTableWord 128 (0x1000000000000001 + 7 * 2 ^ 64) = some (.wra 1 7) := by rfl

/-- R79's example line, and its packet. -/
theorem test_text_acc : (assembleText "ACC 2, 0x5, 0x7".toList).map encode = some ⟨0x0400000000000002, [5, 7]⟩ := by rfl
theorem test_text_register : assembleText "RDS  FHDR ; the header".toList = some (.rds 2) := by rfl
theorem test_text_too_wide : assembleText "WRA 0, 0x10000000000000000".toList = none := by rfl
theorem test_text_pseudo : pseudoText "SETA 255".toList = some (.seta 255) := by rfl
theorem test_text_response : responseText ⟨3, []⟩ = "-> CV_INDEX".toList := by rfl

/-! ### One step of each command, with the spec's vectors -/

/-- V-W5. -/
theorem test_wmul_largest : seen answer (exec (.wmul maxWord maxWord) two) = some [0, 1, 0xFFFFFFFFFFFFFFFE] := by rfl
/-- V-W10. -/
theorem test_wmul_mixed : seen answer (exec (.wmul 0x123456789ABCDEF0 0x0FEDCBA987654321) two) =
    some [0, 0x2236D88FE5618CF0, 0x0121FA00AD77D742] := by rfl
/-- V-C6. -/
theorem test_adc_largest : seen answer (exec (.adc maxWord maxWord true) two) = some [0, maxWord, 1] := by rfl
/-- V-C11. -/
theorem test_adc_below_carry : seen answer (exec (.adc 0xFFFFFFFFFFFFFFFE 1 false) two) = some [0, maxWord, 0] := by rfl
/-- V-Z1. -/
theorem test_zero : seen State.p (exec .zero two) = some [0, 0, 0, 0] := by rfl
/-- V-A5: one below the overflow. -/
theorem test_acc_below_overflow : seen State.p (exec (.acc 2 maxWord 0xFFFFFFFFFFFFFFFA) two) =
    some [1, 2, 2, maxWord] := by rfl
/-- V-A4: at the overflow. -/
theorem test_acc_overflow : seen (fun t => (t.cause, answer t)) (exec (.acc 2 maxWord 0xFFFFFFFFFFFFFFFB) two) =
    some (5, [5]) := by rfl
/-- V-M8. -/
theorem test_muls_mixed : seen State.p (exec .muls
      (block 2 [0x123456789ABCDEF0, 0x0FEDCBA987654321] [0xAAAAAAAAAAAAAAAA, 0x5555555555555555] [9, 9, 9, 9])) =
    some [0xF3DD1BAF98D76B60, 0xFB72EA61D950C839, 0x0B60B60B60B60B5A, 0x054F43E32D21C10B] := by rfl
/-- V-M10: N = 1. -/
theorem test_muls_one_limb : seen State.p (exec .muls (block 1 [maxWord] [maxWord] [0, 0])) =
    some [1, 0xFFFFFFFFFFFFFFFE] := by rfl
/-- V-F6: `xc` and `d1` are 1. -/
theorem test_mulf_largest : seen State.p (exec .mulf full) = some [1, 0, 0xFFFFFFFFFFFFFFFE, maxWord] := by rfl
/-- V-F8: N = 4. -/
theorem test_mulf_width : seen answer (exec .mulf (block 4 [0, 0, 0, 0] [0, 0, 0, 0] (List.replicate 8 7))) = some [4] := by
  rfl
/-- V-H1. -/
theorem test_wra : seen State.a (exec (.wra 1 0xFEDCBA9876543210) two) = some [0xF, 0xFEDCBA9876543210] := by rfl
/-- V-H8: FHDR and the unchanged bank. -/
theorem test_wra_range : seen (fun t => (t.cause, t.fhdr, t.a)) (exec (.wra 2 1) two) =
    some (3, 0x1000000000000002, [0xF, 0]) := by rfl
/-- V-H3. -/
theorem test_wrb : seen State.b (exec (.wrb 0 2) two) = some [2, 0] := by rfl
/-- V-H4. -/
theorem test_wrp : seen State.p (exec (.wrp 3 9) two) = some [1, 2, 3, 9] := by rfl
/-- V-H2, on another limb. -/
theorem test_rda : seen answer (exec (.rda 0) two) = some [0, 0xF] := by rfl
theorem test_rdb : seen answer (exec (.rdb 0) two) = some [0, 0x10] := by rfl
/-- V-H5. -/
theorem test_rdp : seen answer (exec (.rdp 3) two) = some [0, 4] := by rfl
/-- V-H9. -/
theorem test_rdp_range : seen (fun t => (t.fhdr, answer t)) (exec (.rdp 4) two) = some (0x1600000000000004, [3]) := by rfl
/-- V-H6. -/
theorem test_rds_config : seen answer (exec (.rds 1) two) = some [0, 0x0000000001400002] := by rfl
/-- V-X5. -/
theorem test_rds_fhdr : seen answer (exec (.rds 2) broken) = some [0, 0x0400000000000000] := by rfl
/-- V-X8: an illegal header in the fault state. -/
theorem test_refused : seen answer (step (asked broken ⟨0, []⟩)) = some [6] := by rfl
/-- V-X9: reset, the only exit. -/
theorem test_reset : seen (fun t => (t.cause, t.fhdr)) (step { broken with inbox := [.reset none] }) = some (0, 0) := by rfl
/-- The first step after reset runs the request put on the port. -/
theorem test_first_instruction :
    seen answer (step (State.reset.withFetchWord 64 0x1800000000000001)) = some [0, 0x0000000001400002] := by rfl

/-! ### The hypotheses of the statements can be met -/

theorem witness_DecodeOfEncode : Instr.wellFormed (.wra 65535 7) = true := by decide

theorem witness_EncodeOfDecode : decode ⟨0x100000000000FFFF, [7]⟩ = .ok (.wra 65535 7) := by rfl

theorem witness_DecodingSelectsTheOneRow :
    (⟨.adc, .C, 0x0200000000000000, 0xFFFFFFFFFFFFFFFE⟩ : Row) ∈ opcodeTable ∧
    (0x0200000000000001 : Word) &&& 0xFFFFFFFFFFFFFFFE = 0x0200000000000000 ∧
    ∀ row ∈ opcodeTable, (0x0200000000000002 : Word) &&& row.mask ≠ row.pattern := by decide

theorem witness_IllegalHeaders :
    decode ⟨0x0200000000000002, []⟩ = .error .illegal ∧
    State.nextRequest (asked two ⟨0x0200000000000002, []⟩) ⟨0x0200000000000002, []⟩ [] ∧
    (asked two ⟨0x0200000000000002, []⟩).cause = 0#8 := by
  exact ⟨by rfl, by rfl, by rfl⟩

theorem witness_WrongDataBeatsRaiseLength :
    selectRow 0x1400000000000000 = some ⟨.rda, .I, 0x1400000000000000, 0xFFFFFFFFFFFF0000⟩ ∧
    [(5 : Word)].length ≠ Format.dataBeats .I ∧
    State.nextRequest (asked two ⟨0x1400000000000000, [5]⟩) ⟨0x1400000000000000, [5]⟩ [] ∧
    (asked two ⟨0x1400000000000000, [5]⟩).cause = 0#8 := by
  exact ⟨by rfl, by decide, by rfl, by rfl⟩

theorem witness_AssemblerLinesRoundTrip :
    Instr.wellFormed (.acc 65535 1 2) = true ∧ assembleLine ⟨.acc, [65535, 1, 2]⟩ = some (.acc 65535 1 2) := by
  exact ⟨by decide, by rfl⟩

theorem witness_StepRunsTheDecodedCommand :
    State.nextRequest (asked two ⟨0x0500000000000000, []⟩) ⟨0x0500000000000000, []⟩ [] ∧
    decode ⟨0x0500000000000000, []⟩ = .ok .muls := by
  exact ⟨by rfl, by rfl⟩

theorem witness_IdleKeepsState : two.inbox = [] := by rfl

/-- One request for each of the five clauses: served in the fault state, refused there (register 3), no row, a wrong
number of beats, a command. -/
theorem witness_OrderOfChecks :
    (broken.cause ≠ 0#8 ∧ decode ⟨0x1800000000000002, []⟩ = .ok (.rds 2)) ∧
    decode ⟨0x1800000000000003, []⟩ = .ok (.rds 3) ∧
    (two.cause = 0#8 ∧ selectRow 0x0700000000000000 = none) ∧
    (selectRow 0x0500000000000000 = some ⟨.muls, .Z, 0x0500000000000000, 0xFFFFFFFFFFFFFFFF⟩ ∧
      [(0 : Word)].length ≠ Format.dataBeats .Z) ∧
    decode ⟨0x0500000000000000, []⟩ = .ok .muls := by
  exact ⟨⟨by decide, by rfl⟩, by rfl, ⟨by rfl, by rfl⟩, ⟨by rfl, by decide⟩, by rfl⟩

/-- A step that answers OK and one that answers another code. -/
theorem witness_OneResponsePerRequest :
    step (asked two ⟨0x1400000000000000, []⟩) = .next (two.okReply [0xF]) ∧
    step (asked broken ⟨0x0500000000000000, []⟩) = .next broken.refusedReply := by
  exact ⟨by rfl, by rfl⟩

/-- A reset that abandons a command, in the fault state. -/
theorem witness_ResetInput : State.inbox { broken with inbox := [.reset (some ⟨0x0500000000000000, []⟩)] } =
    .reset (some ⟨0x0500000000000000, []⟩) :: [] := by rfl

theorem witness_invariant : State.Inv two ∧ State.Inv full ∧ State.Inv broken := by decide

theorem witness_StepKeepsInvariant :
    State.Inv (asked two ⟨0x0300000000000000, []⟩) ∧
    step (asked two ⟨0x0300000000000000, []⟩) = .next ((two.setProduct [0, 0, 0, 0]).ok []) := by
  exact ⟨by decide, by rfl⟩

theorem witness_Reachable : Reachable (State.powerOn 1 fun _ _ => 7) :=
  .powerOn 1 (fun _ _ => 7) [] (by decide)

theorem witness_OperandBanksWrittenOnlyByWrites :
    (exec (.wra 1 5) two = .next ((two.setLimb .A 1 5).ok []) ∧ ((two.setLimb .A 1 5).ok []).a ≠ two.a) ∧
    (exec (.wrb 1 5) two = .next ((two.setLimb .B 1 5).ok []) ∧ ((two.setLimb .B 1 5).ok []).b ≠ two.b) := by
  exact ⟨⟨by rfl, by decide⟩, ⟨by rfl, by decide⟩⟩

theorem witness_ProductBankWriters :
    exec .muls two = .next ((two.setProduct [0xF0, 0, 0, 0]).ok []) ∧ ((two.setProduct [0xF0, 0, 0, 0]).ok []).p ≠ two.p := by
  exact ⟨by rfl, by decide⟩

/-- A reset, a request that changes nothing in the fault registers, and one that enters the fault state. -/
theorem witness_FaultRegistersChangeOnlyOnce :
    step { broken with inbox := [.reset none] } = .next (State.resetBlock { broken with inbox := [] }) ∧
    step (asked two ⟨0x1400000000000001, []⟩) = .next (two.okReply [0]) ∧
    step (asked two ⟨0x1400000000000002, []⟩) = .next (two.faultEntry 3 0x1400000000000002) := by
  exact ⟨by rfl, by rfl, by rfl⟩

theorem witness_FaultEntry :
    two.cause = 0#8 ∧ step (asked two ⟨0x0700000000000000, []⟩) = .next (two.faultEntry 1 0x0700000000000000) ∧
    (two.faultEntry 1 0x0700000000000000).cause ≠ 0#8 := by
  exact ⟨by rfl, by rfl, by decide⟩

theorem witness_FaultStateIsSticky :
    broken.cause ≠ 0#8 ∧ step (asked broken ⟨0x1800000000000000, []⟩) = .next (broken.okReply [5]) ∧
    step (asked broken ⟨0x1800000000000003, []⟩) = .next broken.refusedReply := by
  exact ⟨by decide, by rfl, by rfl⟩

theorem witness_FailureMeansFaultState :
    step (asked two ⟨0x0700000000000000, []⟩) = .next (two.faultEntry 1 0x0700000000000000) ∧
    (two.faultEntry 1 0x0700000000000000).sent = two.sent ++ [⟨1, []⟩] ∧ Response.failed ⟨1, []⟩ = true := by
  exact ⟨by rfl, by rfl, by rfl⟩

/-- One command for each of the four alternatives: an offset, a limb index, the width, the overflow. -/
theorem witness_CommandFaults :
    exec (.acc 3 0 0) two = .next (two.faultEntry 3 0x0400000000000003) ∧
    exec (.rds 3) two = .next (two.faultEntry 3 0x1800000000000003) ∧
    exec .mulf (block 1 [5] [7] [0, 0]) = .next ((block 1 [5] [7] [0, 0]).faultEntry 4 0x0600000000000000) ∧
    seen State.cause (exec (.acc 0 1 0) full) = some 5 := by
  exact ⟨by rfl, by rfl, by rfl, by rfl⟩

theorem witness_WideningMultiplyLaws :
    (maxWord.toNat * maxWord.toNat = (0xFFFFFFFFFFFFFFFE : Word).toNat * 2 ^ 64 + (1 : Word).toNat) ∧ (63 ≤ 63) := by decide

theorem witness_AddWithCarryLaws : (0xFFFFFFFFFFFFFFFE : Word) ≠ maxWord := by decide

theorem witness_CarryChainIsExact : [maxWord, 1].length = [1, maxWord].length := by rfl

/-- For every command statement: a legal state outside the fault state, one in it, and an index at the top of `idx`. -/
theorem witness_commands :
    State.wf two ∧ two.cause = 0#8 ∧ broken.cause ≠ 0#8 ∧ (65535 < 65536) ∧ two.n = 2 ∧ (block 1 [5] [7] [0, 0]).n ≠ 2 := by
  decide

/-- The last index of each space, the first outside it, and the registers. -/
theorem witness_indexes :
    1 < two.n ∧ two.n ≤ 2 ∧ 3 < 2 * two.n ∧ 2 * two.n ≤ 4 ∧ 2 + 2 ≤ 2 * two.n ∧ 2 * two.n < 3 + 2 ∧ 2 < 3 := by decide

/-- V-A5 and V-A4: the totals on either side of β^(2N). -/
theorem witness_AccCommand_totals :
    val two.p + maxWord.toNat * (2 ^ 64) ^ 2 + (0xFFFFFFFFFFFFFFFA : Word).toNat * (2 ^ 64) ^ (2 + 1) < (2 ^ 64) ^ (2 * two.n) ∧
    (2 ^ 64) ^ (2 * two.n) ≤ val two.p + maxWord.toNat * (2 ^ 64) ^ 2 + (0xFFFFFFFFFFFFFFFB : Word).toNat * (2 ^ 64) ^ (2 + 1) := by
  decide

/-- V-A10: the carry stops at limb 2, so limb 3 is in the frame. -/
theorem witness_AccCommand_unchanged :
    exec (.acc 1 1 0) (block 2 [0, 0] [0, 0] [7, maxWord, 5, 9]) =
      .next (((block 2 [0, 0] [0, 0] [7, maxWord, 5, 9]).setProduct [7, 0, 6, 9]).ok []) ∧
    1 + 2 ≤ 3 ∧ 3 ≤ 2 * 2 ∧
    val [7, maxWord, 5] + (1 : Word).toNat * (2 ^ 64) ^ 1 + (0 : Word).toNat * (2 ^ 64) ^ (1 + 1) < (2 ^ 64) ^ 3 := by
  exact ⟨by rfl, by decide, by decide, by decide⟩

/-- The header a command does not accept, and a wrong number of beats, for a command of each format. -/
theorem witness_RejectsMalformed :
    opcField 0x0100000000000001 = 0x01#8 ∧ opcField 0x0200000000000002 = 0x02#8 ∧ opcField 0x0400010000000000 = 0x04#8 ∧
    opcField 0x0500000000000001 = 0x05#8 ∧ opcField 0x1000000000010000 = 0x10#8 ∧ opcField 0x1480000000000000 = 0x14#8 ∧
    rsvField 0x0400010000000000 ≠ 0 ∧ rsvField 0x1000000000010000 ≠ 0 ∧ rsvField 0x1480000000000000 ≠ 0 ∧
    rsvField 0x100000000000FFFF = 0 ∧ ([] : List Word).length ≠ 1 := by decide

/-- A reading command, its answer, and the same again. -/
theorem witness_ReadingCommandsFrame :
    exec (.rdp 3) two = .next (two.okReply [4]) ∧ (two.okReply [4]).sent = two.sent ++ [⟨0#8, [4]⟩] := by
  exact ⟨by rfl, by rfl⟩

theorem witness_WritingCommandsFrame :
    exec (.wra 1 5) two = .next ((two.setLimb .A 1 5).ok []) ∧ exec (.wrb 1 5) two = .next ((two.setLimb .B 1 5).ok []) ∧
    exec (.wrp 3 5) two = .next ((two.setLimb .P 3 5).ok []) ∧ exec .zero two = .next ((two.setProduct [0, 0, 0, 0]).ok []) ∧
    ((two.setLimb .A 1 5).ok []).cause = 0#8 := by
  exact ⟨by rfl, by rfl, by rfl, by rfl, by rfl⟩

/-- V-M6: the calls of MULS on the largest operands settle, and one of them moved to the front is another order. -/
theorem witness_OrderOfSettledCallsDoesNotMatter :
    (∀ x ∈ [(0, (1 : Word), (0xFFFFFFFFFFFFFFFE : Word)), (2, 1, 0xFFFFFFFFFFFFFFFE)], x.1 + 2 ≤ 2 * 2) ∧
    ([(0, (1 : Word), (0xFFFFFFFFFFFFFFFE : Word)), (2, 1, 0xFFFFFFFFFFFFFFFE)].map fun x =>
      x.2.1.toNat * (2 ^ 64) ^ x.1 + x.2.2.toNat * (2 ^ 64) ^ (x.1 + 1)).sum < (2 ^ 64) ^ (2 * 2) ∧
    [(2, (1 : Word), (0xFFFFFFFFFFFFFFFE : Word)), (0, 1, 0xFFFFFFFFFFFFFFFE)].Perm
      [(0, 1, 0xFFFFFFFFFFFFFFFE), (2, 1, 0xFFFFFFFFFFFFFFFE)] := by
  decide

theorem witness_NoAccumulateOfMulsOverflows :
    full.a.length = 2 ∧ full.b.length = 2 ∧ rowMajor 2 = [(0, 0), (0, 1)] ++ (1, 0) :: [(1, 1)] := by decide

theorem witness_MulsIsExact :
    State.wf full ∧ full.cause = 0#8 ∧
    exec .muls full = .next ((full.setProduct [1, 0, 0xFFFFFFFFFFFFFFFE, maxWord]).ok []) := by
  exact ⟨by decide, by rfl, by rfl⟩

theorem witness_OperationSequenceOfMulf : (FixedState.mk [7, 7, 7, 7] []).p.length = 4 := by rfl

theorem witness_MulfEqualsMuls : State.wf full ∧ full.n = 2 := by decide

theorem witness_HostDrivenSchoolbook : State.wf full ∧ full.cause = 0#8 := by decide

theorem witness_MulsProperties :
    [maxWord].length = 1 ∧ 1 ≤ 1 ∧ full.a = [maxWord, maxWord] ∧ full.b = [maxWord, maxWord] ∧ full.a.length = 2 := by decide

theorem witness_ProductIgnoresOldContent :
    exec .muls full = .next ((full.setProduct [1, 0, 0xFFFFFFFFFFFFFFFE, maxWord]).ok []) ∧
    exec .mulf full = .next ((full.setProduct [1, 0, 0xFFFFFFFFFFFFFFFE, maxWord]).ok []) ∧ full.n = 2 := by
  exact ⟨by rfl, by rfl, by rfl⟩

/-- The largest value that fits and the smallest that does not. -/
theorem witness_PseudoInstructions :
    State.wf two ∧ two.cause = 0#8 ∧ 2 ^ 128 - 1 < (2 ^ 64) ^ two.n ∧ (2 ^ 64) ^ two.n ≤ 2 ^ 128 := by decide

end Sys2Proof.Tests
end

/-! PROOFS. What one input can do to the block, said once as the relation `Served` and the inversion lemma `step_cases`,
and the statements of `00_scope.md` derived from it: the invariant of every run, N, and failed responses. -/

namespace Sys2Proof.Machine

/-! ### The outcomes of a request -/

/-- What serving a request whose header is `hdr` can leave, whichever command it carries (`60_exceptions.md` R204):
every write and every fault entry happens outside the fault state. -/
inductive Served (hdr : Word) (s : State) : State → Prop where
  /-- A command that writes no bank answered OK. -/
  | answered (results : List Word) : Served hdr s (s.ok results)
  /-- The request came in the fault state and was refused (R206). -/
  | refused (h : s.cause ≠ 0#8) : Served hdr s s.refuse
  /-- Fault entry (R205). -/
  | raised (h : s.cause = 0#8) (c : Cause) : Served hdr s (s.raiseFault c hdr)
  /-- One limb was written. -/
  | wroteLimb (h : s.cause = 0#8) (x : Bank) (i : Nat) (v : Word) : Served hdr s ((s.setLimb x i v).ok [])
  /-- Bank P was replaced by another of 2N limbs. -/
  | wroteProduct (h : s.cause = 0#8) (p : List Word) (hp : s.p.length = 2 * s.n → p.length = 2 * s.n) :
      Served hdr s ((s.setProduct p).ok [])

section
variable {s t : State} {hdr : Word}

theorem reject_served (c : Cause) : Served hdr s (s.reject c hdr) := by
  obtain ⟨hf, he⟩ | ⟨hf, he⟩ := s.reject_cases c hdr <;> rw [he]
  · exact .refused hf
  · exact .raised hf c

/-- Of a command's own rule only the run outside the fault state, after a passed operand check, has to be looked at. -/
theorem commence_served {check : Option Cause} {run : State → State}
    (hrun : s.cause = 0#8 → check = none → Served hdr s (run s)) : Served hdr s (s.commence hdr check run) := by
  obtain ⟨hf, he⟩ | ⟨c, hf, -, he⟩ | ⟨hf, hc, he⟩ := s.commence_cases hdr check run <;> rw [he]
  · exact .refused hf
  · exact .raised hf c
  · exact hrun hf hc

theorem execAcc_served (off : Nat) (lo hi : Word) (s : State) :
    ∃ t, execAcc off lo hi s = .next t ∧ Served (header (.acc off lo hi)) s t := by
  refine ⟨_, rfl, commence_served fun hf _ => ?_⟩
  split
  · exact .raised hf _
  · exact .wroteProduct hf _ fun hp => by rw [accumulate_length, hp]

theorem execRds_served (r : Nat) (s : State) : ∃ t, execRds r s = .next t ∧ Served (header (.rds r)) s t := by
  unfold execRds
  cases checkRegister r with
  | none => exact ⟨_, rfl, .answered _⟩
  | some c => exact ⟨_, rfl, reject_served c⟩

/-- Every command answers a next state, and the state is one of the outcomes of `Served`. -/
theorem exec_served (i : Instr) (s : State) : ∃ t, exec i s = .next t ∧ Served (header i) s t := by
  cases i with
  | wmul a b => exact ⟨_, rfl, commence_served fun _ _ => .answered _⟩
  | adc a b cin => exact ⟨_, rfl, commence_served fun _ _ => .answered _⟩
  | zero => exact ⟨_, rfl, commence_served fun hf _ => .wroteProduct hf _ fun _ => zeroedProduct_length _⟩
  | acc off lo hi => exact execAcc_served off lo hi s
  | muls => exact ⟨_, rfl, commence_served fun hf _ => .wroteProduct hf _ fun _ => schoolbook_length _ _ _⟩
  | mulf =>
    refine ⟨_, rfl, commence_served fun hf hc => .wroteProduct hf _ fun _ => ?_⟩
    rw [checkWidth_eq_none.mp hc]
    rfl
  | wra k v => exact ⟨_, rfl, commence_served fun hf _ => .wroteLimb hf .A k v⟩
  | wrb k v => exact ⟨_, rfl, commence_served fun hf _ => .wroteLimb hf .B k v⟩
  | wrp k v => exact ⟨_, rfl, commence_served fun hf _ => .wroteLimb hf .P k v⟩
  | rda k => exact ⟨_, rfl, commence_served fun _ _ => .answered _⟩
  | rdb k => exact ⟨_, rfl, commence_served fun _ _ => .answered _⟩
  | rdp k => exact ⟨_, rfl, commence_served fun _ _ => .answered _⟩
  | rds r => exact execRds_served r s

/-- The header that a fault raised by the request records: that of the decoded instruction, or the request's own when it
carries no command (log 7). -/
def faultHeader (r : Request) : Word :=
  match decode r with
  | .ok i => header i
  | .error _ => r.header

/-- A request is served whatever it holds. -/
theorem serveRequest_served (r : Request) (s : State) :
    ∃ t, serveRequest r s = .next t ∧ Served (faultHeader r) s t := by
  unfold serveRequest faultHeader
  cases decode r with
  | ok i => exact exec_served i s
  | error e =>
    cases e with
    | illegal => exact ⟨_, rfl, reject_served .illegal⟩
    | wrongLength => exact ⟨_, rfl, reject_served .cvLength⟩

/-! ### What a step can do -/

theorem step_of_nextRequest {r : Request} {rest : List Input} (hr : s.nextRequest r rest) :
    step s = serveRequest r { s with inbox := rest } := by
  simp only [step, hr, serveInput]

theorem served_of_nextRequest {r : Request} {rest : List Input} (hr : s.nextRequest r rest) (ht : step s = .next t) :
    Served (faultHeader r) { s with inbox := rest } t := by
  obtain ⟨u, hu, hs⟩ := serveRequest_served r { s with inbox := rest }
  rw [step_of_nextRequest hr, hu, Host.Outcome.next.injEq] at ht
  exact ht ▸ hs

/-- Everything a step can do: idle, reset, or serve a request. -/
theorem step_cases (ht : step s = .next t) :
    (s.inbox = [] ∧ t = s) ∨
    (∃ abandoned rest, s.inbox = .reset abandoned :: rest ∧ t = State.resetBlock { s with inbox := rest }) ∨
    (∃ r rest, s.nextRequest r rest ∧ Served (faultHeader r) { s with inbox := rest } t) := by
  cases hi : s.inbox with
  | nil =>
    simp only [step, hi, Host.Outcome.next.injEq] at ht
    exact .inl ⟨rfl, ht.symm⟩
  | cons x rest =>
    cases x with
    | reset abandoned =>
      simp only [step, hi, serveInput, Host.Outcome.next.injEq] at ht
      exact .inr (.inl ⟨abandoned, rest, rfl, ht.symm⟩)
    | request r =>
      exact .inr (.inr ⟨r, rest, hi, served_of_nextRequest hi ht⟩)

/-! ### N, the invariant and the fault state under `Served` -/

theorem Served.n_eq (h : Served hdr s t) : t.n = s.n := by
  cases h <;> simp

theorem Served.inv (h : Served hdr s t) (hs : s.Inv) : t.Inv := by
  cases h with
  | answered results => exact hs.ok results
  | refused _ => exact hs.refuse
  | raised _ c => exact hs.raiseFault c hdr
  | wroteLimb _ x i v => exact (hs.setLimb x i v).ok []
  | wroteProduct _ p hp =>
    have ⟨⟨_, _, _, _, hlen⟩, _⟩ := hs
    exact (hs.setProduct (hp hlen)).ok []

/-- The response of a completed command has code 0, whatever the command did before. -/
theorem not_failed_of_ok {u : State} {results : List Word} {resp : Response} (hu : u.sent = s.sent)
    (hsent : (u.ok results).sent = s.sent ++ [resp]) : ¬ resp.failed = true := by
  have hresp : (⟨0, results⟩ : Response) = resp := by simpa [hu] using hsent
  simp [← hresp, Response.failed]

/-- A response with a non-zero code leaves the block in the fault state (`00_scope.md` R13). -/
theorem Served.cause_ne_zero_of_failed {resp : Response} (h : Served hdr s t) (hsent : t.sent = s.sent ++ [resp])
    (hfail : resp.failed = true) : t.cause ≠ 0#8 := by
  cases h with
  | answered results => exact absurd hfail (not_failed_of_ok rfl hsent)
  | refused hf => exact hf
  | raised _ c => exact causeCode_ne_zero c
  | wroteLimb _ x i v => exact absurd hfail (not_failed_of_ok (s.setLimb_sent x i v) hsent)
  | wroteProduct _ p _ => exact absurd hfail (not_failed_of_ok rfl hsent)

/-- No command leads out of the fault state (`60_exceptions.md` R206, R207). -/
theorem Served.cause_eq_of_faulted (h : Served hdr s t) (hf : s.cause ≠ 0#8) : t.cause = s.cause := by
  cases h with
  | answered results => rfl
  | refused _ => rfl
  | raised h0 _ => exact absurd h0 hf
  | wroteLimb h0 _ _ _ => exact absurd h0 hf
  | wroteProduct h0 _ _ => exact absurd h0 hf

/-! ### The step and the runs -/

theorem step_n_eq (ht : step s = .next t) : t.n = s.n := by
  obtain ⟨-, rfl⟩ | ⟨_, _, -, rfl⟩ | ⟨_, _, -, hs⟩ := step_cases ht
  · rfl
  · rfl
  · exact hs.n_eq

theorem State.Inv.step (hs : s.Inv) (ht : step s = .next t) : t.Inv := by
  obtain ⟨-, rfl⟩ | ⟨_, rest, -, rfl⟩ | ⟨_, rest, -, hserved⟩ := step_cases ht
  · exact hs
  · exact State.Inv.resetBlock (s := { s with inbox := rest }) hs
  · exact hserved.inv hs

end

theorem State.powerOn_inv (n : Nat) (limbs : Bank → Nat → Word) (hn : 1 ≤ n ∧ n ≤ Config.maxLimbs) :
    (State.powerOn n limbs).Inv := by
  refine ⟨⟨hn.1, hn.2, ?_, ?_, ?_⟩, ?_, fun _ => rfl⟩ <;> simp [State.powerOn]

/-! ### The statements -/

/-- Settles O18: of idle, reset and request, none writes N. -/
theorem stepKeepsN : Obligations.StepKeepsN := fun _ _ ht => step_n_eq ht

/-- Settles O17, by induction on the run: the state after reset meets the invariant and every step keeps it. -/
theorem reachableStatesMeetInvariant : Obligations.ReachableStatesMeetInvariant := by
  intro s hs
  induction hs with
  | powerOn n limbs _ hn => exact State.powerOn_inv n limbs hn
  | step s t _ ht ih => exact ih.step ht

/-- Settles O24: a code other than OK is sent by a refusal, in the fault state, or by fault entry, into it; and in the
fault state a request is only answered or refused. -/
theorem failureMeansFaultState : Obligations.FailureMeansFaultState := by
  intro s t r rest resp hr ht hsent
  have hs := served_of_nextRequest hr ht
  exact ⟨hs.cause_ne_zero_of_failed hsent, hs.cause_eq_of_faulted⟩

end Sys2Proof.Machine

/-! PROOFS. The statements of `10_state.md`: the invariant, which commands write which bank, CAUSE and FHDR, the layouts
of the status registers, and what reset leaves. -/

namespace Sys2Proof

/-! ### The header of a decoded instruction -/

section
variable {h : Word} {op : Mnemonic} {f : Format}

/-- A row whose mask leaves `idx` free selects only headers that its `opc` and their own `idx` make up. -/
theorem headerOf_idxField_of_selects {opc : BitVec 8}
    (hs : Row.selects ⟨op, f, headerOf opc 0, 0xFFFFFFFFFFFF0000⟩ h = true) : headerOf opc (idxField h) = h := by
  rw [selects_index h op f _ (by rw [headerOf_toNat]; omega), decide_eq_true_iff, headerOf_toNat] at hs
  apply BitVec.eq_of_toNat_eq
  rw [headerOf_toNat, idxField_eq]
  omega

/-- Format C: the row leaves only bit 0 of the header free, which is the carry. -/
theorem headerOf_cinField_of_selects {opc : BitVec 8}
    (hs : Row.selects ⟨op, f, headerOf opc 0, 0xFFFFFFFFFFFFFFFE⟩ h = true) : headerOf opc (cinField h).toNat = h := by
  rw [selects_carry h op f _ (by rw [headerOf_toNat]; omega), decide_eq_true_iff, headerOf_toNat] at hs
  apply BitVec.eq_of_toNat_eq
  rw [headerOf_toNat, cinField_eq]
  by_cases hodd : h.toNat % 2 = 1 <;> simp only [hodd, decide_true, decide_false, Bool.toNat_true, Bool.toNat_false] <;>
    omega

theorem headerOf_zero_of_selects {opc : BitVec 8}
    (hs : Row.selects ⟨op, f, headerOf opc 0, 0xFFFFFFFFFFFFFFFF⟩ h = true) : headerOf opc 0 = h := by
  rw [selects_full, decide_eq_true_iff] at hs
  exact hs.symm

end

section
variable {h : Word} {data : List Word} {i : Instr}

theorem header_of_noBeats {j : Instr} (ha : noBeats j data = some i) (hj : header j = h) : header i = h := by
  rcases data with _ | ⟨_, _⟩
  · exact Option.some.inj ha ▸ hj
  · cases ha

theorem header_of_oneBeat {f : Word → Instr} (ha : oneBeat f data = some i) (hf : ∀ v, header (f v) = h) :
    header i = h := by
  rcases data with _ | ⟨v, _ | ⟨_, _⟩⟩
  · cases ha
  · exact Option.some.inj ha ▸ hf v
  · cases ha

theorem header_of_twoBeats {f : Word → Word → Instr} (ha : twoBeats f data = some i)
    (hf : ∀ v w, header (f v w) = h) : header i = h := by
  rcases data with _ | ⟨v, _ | ⟨w, _ | ⟨_, _⟩⟩⟩
  · cases ha
  · cases ha
  · exact Option.some.inj ha ▸ hf v w
  · cases ha

/-- The instruction assembled from a selected header has that header: a row's mask leaves free only the bits that the
operands are taken from. -/
theorem header_of_assemble {row : Row} (hr : row ∈ opcodeTable) (hs : row.selects h = true)
    (ha : assemble row.op h data = some i) : header i = h := by
  simp only [opcodeTable, List.mem_cons, List.not_mem_nil, or_false] at hr
  obtain rfl | rfl | rfl | rfl | rfl | rfl | rfl | rfl | rfl | rfl | rfl | rfl | rfl := hr
  · exact header_of_twoBeats ha fun _ _ => headerOf_zero_of_selects (opc := 0x01) hs
  · exact header_of_twoBeats ha fun _ _ => headerOf_cinField_of_selects (opc := 0x02) hs
  · exact header_of_noBeats ha (headerOf_zero_of_selects (opc := 0x03) hs)
  · exact header_of_twoBeats ha fun _ _ => headerOf_idxField_of_selects (opc := 0x04) hs
  · exact header_of_noBeats ha (headerOf_zero_of_selects (opc := 0x05) hs)
  · exact header_of_noBeats ha (headerOf_zero_of_selects (opc := 0x06) hs)
  · exact header_of_oneBeat ha fun _ => headerOf_idxField_of_selects (opc := 0x10) hs
  · exact header_of_oneBeat ha fun _ => headerOf_idxField_of_selects (opc := 0x11) hs
  · exact header_of_oneBeat ha fun _ => headerOf_idxField_of_selects (opc := 0x12) hs
  · exact header_of_noBeats ha (headerOf_idxField_of_selects (opc := 0x14) hs)
  · exact header_of_noBeats ha (headerOf_idxField_of_selects (opc := 0x15) hs)
  · exact header_of_noBeats ha (headerOf_idxField_of_selects (opc := 0x16) hs)
  · exact header_of_noBeats ha (headerOf_idxField_of_selects (opc := 0x18) hs)

/-- A decoded instruction has the request's own header, so FHDR is written with it (log 7). -/
theorem header_of_decode {r : Request} (hd : decode r = .ok i) : header i = r.header := by
  cases hrow : selectRow r.header with
  | none => rw [decode_of_no_row hrow] at hd; cases hd
  | some row =>
    rw [decode_of_row hrow] at hd
    obtain ⟨hr, hs⟩ := (selectRow_eq_some r.header).mp hrow
    cases ha : assemble row.op r.header r.data with
    | none => rw [ha] at hd; cases hd
    | some j =>
      rw [ha] at hd
      cases hd
      exact header_of_assemble hr hs ha

end

end Sys2Proof

namespace Sys2Proof.Machine

/-! ### CAUSE and FHDR -/

theorem step_of_idle {s : State} (hi : s.inbox = []) : step s = .next s := by
  simp only [step, hi]

theorem step_of_reset {s : State} {x : Option Request} {rest : List Input} (hi : s.inbox = .reset x :: rest) :
    step s = .next (State.resetBlock { s with inbox := rest }) := by
  simp only [step, hi, serveInput]

theorem faultHeader_eq (r : Request) : faultHeader r = r.header := by
  unfold faultHeader
  cases hd : decode r with
  | ok i => exact header_of_decode hd
  | error e => rfl

/-- Serving a request leaves both fault registers or enters the fault state from CAUSE 0 (`10_state.md` R35). -/
theorem Served.faultRegisters {s t : State} {hdr : Word} (h : Served hdr s t) :
    (t.cause = s.cause ∧ t.fhdr = s.fhdr) ∨ (s.cause = 0#8 ∧ t.cause ≠ 0#8 ∧ t.fhdr = hdr) := by
  cases h with
  | answered results => exact .inl ⟨rfl, rfl⟩
  | refused _ => exact .inl ⟨rfl, rfl⟩
  | raised h0 c => exact .inr ⟨h0, causeCode_ne_zero c, rfl⟩
  | wroteLimb _ x i v => exact .inl ⟨s.setLimb_cause x i v, s.setLimb_fhdr x i v⟩
  | wroteProduct _ p _ => exact .inl ⟨rfl, rfl⟩

/-! ### The bank a command writes -/

/-- The bank that a command writes, whatever its operands, if it writes one (`10_state.md` R23, R25). -/
def destination : Instr → Option Bank
  | .wra _ _ => some .A
  | .wrb _ _ => some .B
  | .zero => some .P
  | .acc _ _ _ => some .P
  | .muls => some .P
  | .mulf => some .P
  | .wrp _ _ => some .P
  | .wmul _ _ => none
  | .adc _ _ _ => none
  | .rda _ => none
  | .rdb _ => none
  | .rdp _ => none
  | .rds _ => none

section
variable {s : State} {x : Bank}

/-- A completed write of one limb leaves the other banks. -/
theorem State.bank_setLimb_ok_of_ne {y : Bank} (h : y ≠ x) (i : Nat) (v : Word) (results : List Word) :
    ((s.setLimb y i v).ok results).bank x = s.bank x := by
  cases x <;> cases y <;> simp at h ⊢

/-- A completed write of bank P leaves banks A and B. -/
theorem State.bank_setProduct_ok_of_ne (h : .P ≠ x) (p : List Word) (results : List Word) :
    ((s.setProduct p).ok results).bank x = s.bank x := by
  cases x with
  | A => rfl
  | B => rfl
  | P => exact absurd rfl h

/-- Fault entry writes a bank only for ACC_OVERFLOW, and then only bank P (`60_exceptions.md` R205). -/
theorem State.bank_raiseFault {c : Cause} (hc : c ≠ .accOverflow ∨ .P ≠ x) (hdr : Word) :
    (s.raiseFault c hdr).bank x = s.bank x := by
  cases x with
  | A => exact s.raiseFault_a c hdr
  | B => exact s.raiseFault_b c hdr
  | P =>
    obtain hc | hx := hc
    · rw [s.raiseFault_of_ne c hdr hc]; rfl
    · exact absurd rfl hx

theorem State.bank_reject {c : Cause} (hc : c ≠ .accOverflow) (hdr : Word) : (s.reject c hdr).bank x = s.bank x := by
  obtain ⟨-, he⟩ | ⟨-, he⟩ := s.reject_cases c hdr <;> rw [he]
  · rfl
  · exact bank_raiseFault (.inl hc) hdr

/-- Whether a command leaves a bank is seen in its own rule, since the operand check raises no ACC_OVERFLOW. -/
theorem State.bank_commence {hdr : Word} {check : Option Cause} {run : State → State}
    (hcheck : check ≠ some .accOverflow) (hrun : (run s).bank x = s.bank x) :
    (s.commence hdr check run).bank x = s.bank x := by
  obtain ⟨-, he⟩ | ⟨c, -, hc, he⟩ | ⟨-, -, he⟩ := s.commence_cases hdr check run <;> rw [he]
  · rfl
  · exact bank_raiseFault (.inl fun h => hcheck (h ▸ hc)) hdr
  · exact hrun

end

/-- An operand check answers its one cause, and ACC_OVERFLOW is the cause of none. -/
theorem ite_check_ne_accOverflow {p : Prop} [Decidable p] {c : Cause} (hc : c ≠ .accOverflow) :
    (if p then none else some c) ≠ some .accOverflow := by
  split
  · exact nofun
  · exact fun h => hc (Option.some.inj h)

section
variable {x : Bank}

theorem execAcc_bank (hx : .P ≠ x) (off : Nat) (lo hi : Word) (s : State) :
    ∃ t, execAcc off lo hi s = .next t ∧ t.bank x = s.bank x := by
  refine ⟨_, rfl, State.bank_commence (ite_check_ne_accOverflow nofun) ?_⟩
  split
  · exact State.bank_raiseFault (.inr hx) _
  · exact State.bank_setProduct_ok_of_ne hx _ _

theorem execRds_bank (r : Nat) (s : State) : ∃ t, execRds r s = .next t ∧ t.bank x = s.bank x := by
  have hcheck : checkRegister r ≠ some .accOverflow := ite_check_ne_accOverflow nofun
  unfold execRds
  cases hc : checkRegister r with
  | none => exact ⟨_, rfl, rfl⟩
  | some c => exact ⟨_, rfl, State.bank_reject (fun h => hcheck (h ▸ hc)) _⟩

/-- A command leaves every bank but its destination, whatever it answers. -/
theorem exec_bank_of_ne {i : Instr} (hx : destination i ≠ some x) (s : State) :
    ∃ t, exec i s = .next t ∧ t.bank x = s.bank x := by
  cases i with
  | wmul a b => exact ⟨_, rfl, State.bank_commence nofun rfl⟩
  | adc a b cin => exact ⟨_, rfl, State.bank_commence nofun rfl⟩
  | zero => exact ⟨_, rfl, State.bank_commence nofun (State.bank_setProduct_ok_of_ne (ne_of_apply_ne some hx) _ _)⟩
  | acc off lo hi => exact execAcc_bank (ne_of_apply_ne some hx) off lo hi s
  | muls => exact ⟨_, rfl, State.bank_commence nofun (State.bank_setProduct_ok_of_ne (ne_of_apply_ne some hx) _ _)⟩
  | mulf =>
    exact ⟨_, rfl, State.bank_commence (ite_check_ne_accOverflow nofun)
      (State.bank_setProduct_ok_of_ne (ne_of_apply_ne some hx) _ _)⟩
  | wra k v =>
    exact ⟨_, rfl, State.bank_commence (ite_check_ne_accOverflow nofun)
      (State.bank_setLimb_ok_of_ne (ne_of_apply_ne some hx) k v _)⟩
  | wrb k v =>
    exact ⟨_, rfl, State.bank_commence (ite_check_ne_accOverflow nofun)
      (State.bank_setLimb_ok_of_ne (ne_of_apply_ne some hx) k v _)⟩
  | wrp k v =>
    exact ⟨_, rfl, State.bank_commence (ite_check_ne_accOverflow nofun)
      (State.bank_setLimb_ok_of_ne (ne_of_apply_ne some hx) k v _)⟩
  | rda k => exact ⟨_, rfl, State.bank_commence (ite_check_ne_accOverflow nofun) rfl⟩
  | rdb k => exact ⟨_, rfl, State.bank_commence (ite_check_ne_accOverflow nofun) rfl⟩
  | rdp k => exact ⟨_, rfl, State.bank_commence (ite_check_ne_accOverflow nofun) rfl⟩
  | rds r => exact execRds_bank r s

/-- A command that changes a bank has that bank as its destination. -/
theorem destination_of_bank_ne {i : Instr} {s t : State} (ht : exec i s = .next t) (hne : t.bank x ≠ s.bank x) :
    destination i = some x := by
  by_contra hx
  obtain ⟨u, hu, hbank⟩ := exec_bank_of_ne hx s
  rw [hu, Host.Outcome.next.injEq] at ht
  exact hne (ht ▸ hbank)

end

theorem destination_eq_A {i : Instr} : destination i = some .A ↔ ∃ k v, i = .wra k v := by
  cases i <;> simp [destination]

theorem destination_eq_B {i : Instr} : destination i = some .B ↔ ∃ k v, i = .wrb k v := by
  cases i <;> simp [destination]

theorem destination_eq_P {i : Instr} : destination i = some .P ↔
    i = .zero ∨ i = .muls ∨ i = .mulf ∨ (∃ off lo hi, i = .acc off lo hi) ∨ (∃ k v, i = .wrp k v) := by
  cases i <;> simp [destination]

/-! ### The status registers -/

theorem statusWord_cause (cause : BitVec 8) : (statusWord cause).extractLsb' 0 8 = cause := by
  rw [statusWord, BitVec.extractLsb'_setWidth_of_le (by decide), BitVec.extractLsb'_eq_self]

theorem statusWord_high (cause : BitVec 8) : (statusWord cause).extractLsb' 8 56 = 0 := by
  rw [statusWord, BitVec.extractLsb'_setWidth_of_le (by decide)]
  ext i
  simp [BitVec.getLsbD_of_ge]

theorem configWord_limbs (n : Nat) : (configWord n).extractLsb' 0 16 = BitVec.ofNat 16 n := by
  rw [configWord, BitVec.extractLsb'_append_eq_of_add_le (by decide), BitVec.extractLsb'_append_eq_of_add_le (by decide),
    BitVec.extractLsb'_append_eq_right]

theorem configWord_width (n : Nat) : (configWord n).extractLsb' 16 8 = 64 := by
  rw [configWord, BitVec.extractLsb'_append_eq_of_add_le (by decide), BitVec.extractLsb'_append_eq_of_add_le (by decide),
    BitVec.extractLsb'_append_eq_left]

theorem configWord_fixedFour (n : Nat) : (configWord n).getLsbD 24 = decide (n = 2) := by
  simp only [configWord, BitVec.getLsbD_append]
  simp

theorem configWord_high (n : Nat) : (configWord n).extractLsb' 25 39 = 0 := by
  rw [configWord, BitVec.extractLsb'_append_eq_left]

/-! ### The state after reset -/

theorem getD_map_range {n i : Nat} (f : Nat → Word) (h : i < n) : ((List.range n).map f).getD i 0#64 = f i := by
  simp [List.getD_eq_getElem?_getD, h]

/-! ### The statements -/

/-- Settles O16: idle and reset keep the invariant, and so does every outcome of a request. -/
theorem stepKeepsInvariant : Obligations.StepKeepsInvariant := fun _ _ hs ht => hs.step ht

/-- Settles O19: WRA is the only command with destination A, and WRB the only one with destination B. -/
theorem operandBanksWrittenOnlyByWrites : Obligations.OperandBanksWrittenOnlyByWrites := fun _ _ _ ht =>
  ⟨fun hne => destination_eq_A.mp (destination_of_bank_ne (x := .A) ht hne),
    fun hne => destination_eq_B.mp (destination_of_bank_ne (x := .B) ht hne)⟩

/-- Settles O20: the five commands are those with destination P. -/
theorem productBankWriters : Obligations.ProductBankWriters := fun _ _ _ ht hne =>
  destination_eq_P.mp (destination_of_bank_ne (x := .P) ht hne)

/-- Settles O21: a reset writes both registers, and a request only by fault entry, with its own header. -/
theorem faultRegistersChangeOnlyOnce : Obligations.FaultRegistersChangeOnlyOnce := by
  intro s t ht
  refine ⟨fun hi => ?_, fun x rest hi => ?_, fun r rest hr => ?_⟩
  · rw [step_of_idle hi, Host.Outcome.next.injEq] at ht
    exact ht ▸ ⟨rfl, rfl⟩
  · rw [step_of_reset hi, Host.Outcome.next.injEq] at ht
    exact ht ▸ ⟨rfl, rfl⟩
  · exact faultHeader_eq r ▸ (served_of_nextRequest hr ht).faultRegisters

/-- Settles O44, field by field; a legal N is below 2^16, so its field holds all of it. -/
theorem statusAndConfigLayouts : Obligations.StatusAndConfigLayouts := by
  refine ⟨fun s => ⟨statusWord_cause _, statusWord_high _⟩, fun s hwf => ⟨?_, configWord_width _, ?_, configWord_high _⟩,
    by decide, by decide, by decide⟩
  · have hn : s.n ≤ 32768 := hwf.2.1
    rw [s.register_config, configWord_limbs, BitVec.toNat_ofNat, Nat.mod_eq_of_lt (by omega)]
  · rw [s.register_config, configWord_fixedFour, decide_eq_true_iff]

/-- Settles O13: the limbs of a bank after reset are the list of the first values of `limbs`. -/
theorem resetLeaves : Obligations.ResetLeaves :=
  ⟨rfl, fun _ limbs => ⟨rfl, rfl, rfl, rfl, rfl, rfl, fun _ => getD_map_range (limbs .A),
    fun _ => getD_map_range (limbs .B), fun _ => getD_map_range (limbs .P)⟩⟩

/-- Settles O15: `State.reset` is the state after reset of a block with a legal N. -/
theorem resetMeetsInvariant : Obligations.ResetMeetsInvariant :=
  ⟨State.powerOn_inv _ _ (by decide), fun n limbs h1 h2 => State.powerOn_inv n limbs ⟨h1, h2⟩⟩

end Sys2Proof.Machine

/-! PROOFS. The statements of `20_memory.md`: what a command that writes no bank leaves, and that a read of a limb answers
the latest write. -/

namespace Sys2Proof.Machine

/-! ### The commands that write no bank -/

theorem destination_eq_none {i : Instr} : destination i = none ↔
    (∃ a b, i = .wmul a b) ∨ (∃ a b c, i = .adc a b c) ∨ (∃ k, i = .rda k) ∨ (∃ k, i = .rdb k) ∨ (∃ k, i = .rdp k) ∨
      (∃ k, i = .rds k) := by
  cases i <;> simp [destination]

/-- What a command that writes no bank can leave. Its answer does not depend on the responses sent before, which is why
it can be repeated (R58). -/
inductive ReadOnly (i : Instr) (s : State) : State → Prop where
  /-- The command answered OK, as it would after any other responses. -/
  | answered (results : List Word)
      (h : ∀ log, exec i { s with sent := log } = .next (State.ok { s with sent := log } results)) :
      ReadOnly i s (s.ok results)
  /-- The request came in the fault state and was refused (R206). -/
  | refused : ReadOnly i s s.refuse
  /-- The index was outside its space (R51). -/
  | outOfRange : ReadOnly i s (s.raiseFault .cvIndex (header i))

section
variable {i : Instr} {s t : State}

/-- Outside the fault state a command whose operand check passes runs its own rule. -/
theorem State.commence_of_passed {hdr : Word} {check : Option Cause} {run : State → State} (hf : s.cause = 0#8)
    (hc : check = none) : s.commence hdr check run = run s := by
  rw [hc, s.commence_of_none hf]

/-- A command built on `commence` is read-only when its operand check is one of an index and its own rule is only an
answer. -/
theorem commence_readOnly {check : Option Cause} {run : State → State} (results : List Word)
    (hexec : ∀ log, exec i { s with sent := log } = .next (State.commence { s with sent := log } (header i) check run))
    (hcheck : ∀ c, check = some c → c = .cvIndex)
    (hrun : ∀ log, run { s with sent := log } = State.ok { s with sent := log } results) :
    ReadOnly i s (s.commence (header i) check run) := by
  obtain ⟨-, he⟩ | ⟨c, -, hc, he⟩ | ⟨hf, hc, he⟩ := s.commence_cases (header i) check run <;> rw [he]
  · exact .refused
  · exact hcheck c hc ▸ .outOfRange
  · rw [show run s = s.ok results from hrun s.sent]
    refine .answered results fun log => ?_
    rw [hexec log, State.commence_of_passed (s := { s with sent := log }) hf hc, hrun log]

/-- An index check raises CV_INDEX only. -/
theorem eq_cvIndex_of_ite {p : Prop} [Decidable p] (c : Cause) (h : (if p then none else some Cause.cvIndex) = some c) :
    c = .cvIndex := by
  split at h
  · exact nomatch h
  · exact (Option.some.inj h).symm

/-- RDS answers registers 0 to 2 whatever CAUSE is (R186). -/
theorem exec_rds_of_le {r : Nat} (hr : r ≤ 2) (s : State) : exec (.rds r) s = .next (s.ok [s.register r]) := by
  simp only [exec, execRds, checkRegister_eq_none.mpr hr]

/-- RDS, the one read that is not built on `commence`. -/
theorem execRds_readOnly (r : Nat) (s : State) : ∃ t, execRds r s = .next t ∧ ReadOnly (.rds r) s t := by
  refine ⟨_, rfl, ?_⟩
  cases hc : checkRegister r with
  | none => exact .answered [s.register r] fun _ => exec_rds_of_le (checkRegister_eq_none.mp hc) _
  | some c =>
    obtain rfl : c = .cvIndex := eq_cvIndex_of_ite c hc
    obtain ⟨-, he⟩ | ⟨-, he⟩ := s.reject_cases .cvIndex (header (.rds r)) <;> simp only [he]
    · exact .refused
    · exact .outOfRange

/-- A command without a destination is read-only. -/
theorem exec_readOnly (hi : destination i = none) (s : State) : ∃ t, exec i s = .next t ∧ ReadOnly i s t := by
  obtain ⟨a, b, rfl⟩ | ⟨a, b, c, rfl⟩ | ⟨k, rfl⟩ | ⟨k, rfl⟩ | ⟨k, rfl⟩ | ⟨r, rfl⟩ := destination_eq_none.mp hi
  · exact ⟨_, rfl, commence_readOnly _ (fun _ => rfl) nofun fun _ => rfl⟩
  · exact ⟨_, rfl, commence_readOnly _ (fun _ => rfl) nofun fun _ => rfl⟩
  · exact ⟨_, rfl, commence_readOnly [s.limb .A k] (fun _ => rfl) eq_cvIndex_of_ite fun _ => rfl⟩
  · exact ⟨_, rfl, commence_readOnly [s.limb .B k] (fun _ => rfl) eq_cvIndex_of_ite fun _ => rfl⟩
  · exact ⟨_, rfl, commence_readOnly [s.limb .P k] (fun _ => rfl) eq_cvIndex_of_ite fun _ => rfl⟩
  · exact execRds_readOnly r s

/-- Whatever a read-only command answers, it leaves every limb. -/
theorem ReadOnly.frame (h : ReadOnly i s t) :
    (∀ (x : Bank) (k : Nat), t.limb x k = s.limb x k) ∧ t.n = s.n ∧ t.draws = s.draws ∧ t.inbox = s.inbox := by
  cases h with
  | answered results _ => exact ⟨fun _ _ => rfl, rfl, rfl, rfl⟩
  | refused => exact ⟨fun _ _ => rfl, rfl, rfl, rfl⟩
  | outOfRange =>
    rw [s.raiseFault_of_ne .cvIndex (header i) nofun]
    exact ⟨fun _ _ => rfl, rfl, rfl, rfl⟩

/-- When a read-only command answers OK, only its response was added, and the same command again answers the same. -/
theorem ReadOnly.repeats (h : ReadOnly i s t) {resp : Response} (hsent : t.sent = s.sent ++ [resp])
    (hok : resp.code = 0#8) :
    t = { s with sent := t.sent } ∧ exec i t = .next { t with sent := t.sent ++ [resp] } := by
  cases h with
  | answered results hexec =>
    obtain rfl : ⟨0, results⟩ = resp := by simpa using hsent
    exact ⟨rfl, hexec _⟩
  | refused =>
    obtain rfl : ⟨6, []⟩ = resp := by simpa using hsent
    exact absurd hok (by decide)
  | outOfRange =>
    obtain rfl : ⟨causeCode .cvIndex, []⟩ = resp := by simpa using hsent
    exact absurd hok (causeCode_ne_zero .cvIndex)

end

/-! ### Reads and writes of a limb within its space -/

section
variable {s : State} {i : Nat}

theorem exec_wra_of_lt (hf : s.cause = 0#8) (hi : i < s.n) (v : Word) :
    exec (.wra i v) s = .next ((s.setLimb .A i v).ok []) :=
  congrArg _ (State.commence_of_passed hf (checkOperandLimb_eq_none.mpr hi))

theorem exec_wrb_of_lt (hf : s.cause = 0#8) (hi : i < s.n) (v : Word) :
    exec (.wrb i v) s = .next ((s.setLimb .B i v).ok []) :=
  congrArg _ (State.commence_of_passed hf (checkOperandLimb_eq_none.mpr hi))

theorem exec_wrp_of_lt (hf : s.cause = 0#8) (hi : i < 2 * s.n) (v : Word) :
    exec (.wrp i v) s = .next ((s.setLimb .P i v).ok []) :=
  congrArg _ (State.commence_of_passed hf (checkProductLimb_eq_none.mpr hi))

theorem exec_rda_of_lt (hf : s.cause = 0#8) (hi : i < s.n) : exec (.rda i) s = .next (s.ok [s.limb .A i]) :=
  congrArg _ (State.commence_of_passed hf (checkOperandLimb_eq_none.mpr hi))

theorem exec_rdb_of_lt (hf : s.cause = 0#8) (hi : i < s.n) : exec (.rdb i) s = .next (s.ok [s.limb .B i]) :=
  congrArg _ (State.commence_of_passed hf (checkOperandLimb_eq_none.mpr hi))

theorem exec_rdp_of_lt (hf : s.cause = 0#8) (hi : i < 2 * s.n) : exec (.rdp i) s = .next (s.ok [s.limb .P i]) :=
  congrArg _ (State.commence_of_passed hf (checkProductLimb_eq_none.mpr hi))

/-- After a completed write the limb reads as written. -/
theorem State.limb_setLimb_ok_self (x : Bank) (hi : i < (s.bank x).length) (v : Word) :
    ((s.setLimb x i v).ok []).limb x i = v := s.limb_setLimb_self x i v hi

end

/-! ### The statements -/

/-- Settles O45: the six commands are those without a destination, so they are read-only. -/
theorem readingCommandsFrame : Obligations.ReadingCommandsFrame := by
  intro i s t hi ht
  obtain ⟨u, hu, h⟩ := exec_readOnly (destination_eq_none.mpr hi) s
  obtain rfl : u = t := by rwa [hu, Host.Outcome.next.injEq] at ht
  obtain ⟨hlimb, hn, hdraws, hinbox⟩ := h.frame
  exact ⟨hlimb, hn, hdraws, hinbox, fun _ hsent hok => h.repeats hsent hok⟩

/-- Settles O47: a legal index is within its bank, the write sets that limb and leaves N and CAUSE, so the read that
follows passes its check and finds the word written. -/
theorem readReturnsLatestWrite : Obligations.ReadReturnsLatestWrite := by
  intro s v ⟨_, _, ha, hb, hp⟩ hf
  refine ⟨fun i hi => ⟨_, exec_wra_of_lt hf hi v, ?_⟩, fun i hi => ⟨_, exec_wrb_of_lt hf hi v, ?_⟩,
    fun k hk => ⟨_, exec_wrp_of_lt hf hk v, ?_⟩⟩
  · rw [exec_rda_of_lt (by simpa) (by simpa), State.limb_setLimb_ok_self .A (by simpa [ha])]
    rfl
  · rw [exec_rdb_of_lt (by simpa) (by simpa), State.limb_setLimb_ok_self .B (by simpa [hb])]
    rfl
  · rw [exec_rdp_of_lt (by simpa) (by simpa), State.limb_setLimb_ok_self .P (by simpa [hp])]
    rfl

end Sys2Proof.Machine

/-! PROOFS. The decoder of `30_encoding.md`: decoding and encoding are inverse to each other, which headers are illegal,
and what a wrong number of data beats does. -/

namespace Sys2Proof

/-! ### Decoding the packet of an instruction -/

section
variable {op : Mnemonic} {f : Format} (opc : BitVec 8)

theorem selects_headerOf_zero : Row.selects ⟨op, f, headerOf opc 0, 0xFFFFFFFFFFFFFFFF⟩ (headerOf opc 0) = true := by
  rw [selects_full, decide_eq_true_iff]

/-- A row whose mask leaves `idx` free selects the header with any index. -/
theorem selects_headerOf_index (idx : Nat) :
    Row.selects ⟨op, f, headerOf opc 0, 0xFFFFFFFFFFFF0000⟩ (headerOf opc idx) = true := by
  rw [selects_index _ _ _ _ (by rw [headerOf_toNat]; omega), decide_eq_true_iff, headerOf_toNat, headerOf_toNat]
  omega

/-- Format C: the row selects the header with either carry. -/
theorem selects_headerOf_carry (cin : Bool) :
    Row.selects ⟨op, f, headerOf opc 0, 0xFFFFFFFFFFFFFFFE⟩ (headerOf opc cin.toNat) = true := by
  have hcin := cin.toNat_lt
  rw [selects_carry _ _ _ _ (by rw [headerOf_toNat]; omega), decide_eq_true_iff, headerOf_toNat, headerOf_toNat]
  omega

theorem idxField_headerOf {idx : Nat} (hi : indexFits idx = true) : idxField (headerOf opc idx) = idx := by
  have hlt : idx < 65536 := of_decide_eq_true hi
  rw [idxField_eq, headerOf_toNat]
  omega

theorem cinField_headerOf (cin : Bool) : cinField (headerOf opc cin.toNat) = cin := by
  have hmod : (headerOf opc cin.toNat).toNat % 2 = cin.toNat := by
    have hcin := cin.toNat_lt
    rw [headerOf_toNat]
    omega
  rw [cinField_eq, hmod]
  cases cin <;> rfl

end

/-- What `decode` answers, by the row that selects the header. -/
theorem decode_of_selects {r : Request} {row : Row} {i : Instr} (hr : row ∈ opcodeTable)
    (hs : row.selects r.header = true) (ha : assemble row.op r.header r.data = some i) : decode r = .ok i := by
  rw [decode_of_row ((selectRow_eq_some _).mpr ⟨hr, hs⟩), ha]

/-- The commands that take `idx` as an operand: their row selects the header, and the index is read back. -/
theorem decode_of_index {op : Mnemonic} {f : Format} {opc : BitVec 8} {idx : Nat} {data : List Word}
    (operands : Nat → Instr) (hr : ⟨op, f, headerOf opc 0, 0xFFFFFFFFFFFF0000⟩ ∈ opcodeTable)
    (hi : indexFits idx = true)
    (ha : assemble op (headerOf opc idx) data = some (operands (idxField (headerOf opc idx)))) :
    decode ⟨headerOf opc idx, data⟩ = .ok (operands idx) := by
  rw [idxField_headerOf opc hi] at ha
  exact decode_of_selects hr (selects_headerOf_index opc idx) ha

/-- The commands without an operand in the header. -/
theorem decode_of_no_index {op : Mnemonic} {f : Format} {opc : BitVec 8} {data : List Word} {i : Instr}
    (hr : ⟨op, f, headerOf opc 0, 0xFFFFFFFFFFFFFFFF⟩ ∈ opcodeTable)
    (ha : assemble op (headerOf opc 0) data = some i) : decode ⟨headerOf opc 0, data⟩ = .ok i :=
  decode_of_selects hr (selects_headerOf_zero opc) ha

/-- ADC, whose carry-in is bit 0 of the header. -/
theorem decode_encode_adc (a b : Word) (cin : Bool) : decode (encode (.adc a b cin)) = .ok (.adc a b cin) := by
  refine decode_of_selects (row := ⟨.adc, .C, headerOf 0x02 0, _⟩) (by decide) (selects_headerOf_carry 0x02 cin) ?_
  exact congrArg (fun c => some (Instr.adc a b c)) (cinField_headerOf 0x02 cin)

/-- Decoding inverts encoding: the row of the command selects the header, and the operands are read back from where the
encoder put them (R71 to R74). -/
theorem decode_encode {i : Instr} (hw : i.wellFormed = true) : decode (encode i) = .ok i := by
  cases i with
  | wmul a b => exact decode_of_no_index (op := .wmul) (f := .M) (by decide) rfl
  | adc a b cin => exact decode_encode_adc a b cin
  | zero => exact decode_of_no_index (op := .zero) (f := .Z) (by decide) rfl
  | acc off lo hi => exact decode_of_index (op := .acc) (f := .A) (.acc · lo hi) (by decide) hw rfl
  | muls => exact decode_of_no_index (op := .muls) (f := .Z) (by decide) rfl
  | mulf => exact decode_of_no_index (op := .mulf) (f := .Z) (by decide) rfl
  | wra k v => exact decode_of_index (op := .wra) (f := .W) (.wra · v) (by decide) hw rfl
  | wrb k v => exact decode_of_index (op := .wrb) (f := .W) (.wrb · v) (by decide) hw rfl
  | wrp k v => exact decode_of_index (op := .wrp) (f := .W) (.wrp · v) (by decide) hw rfl
  | rda k => exact decode_of_index (op := .rda) (f := .I) .rda (by decide) hw rfl
  | rdb k => exact decode_of_index (op := .rdb) (f := .I) .rdb (by decide) hw rfl
  | rdp k => exact decode_of_index (op := .rdp) (f := .I) .rdp (by decide) hw rfl
  | rds r => exact decode_of_index (op := .rds) (f := .I) .rds (by decide) hw rfl

/-! ### The packet that decodes to an instruction -/

/-- The instruction is well-formed and has these data beats. -/
def Carries (data : List Word) (i : Instr) : Prop := i.wellFormed = true ∧ dataBeats i = data

section
variable {data : List Word} {i : Instr}

theorem carries_of_noBeats {j : Instr} (ha : noBeats j data = some i) (hj : Carries [] j) : Carries data i := by
  rcases data with _ | ⟨_, _⟩
  · exact Option.some.inj ha ▸ hj
  · cases ha

theorem carries_of_oneBeat {f : Word → Instr} (ha : oneBeat f data = some i) (hf : ∀ v, Carries [v] (f v)) :
    Carries data i := by
  rcases data with _ | ⟨v, _ | ⟨_, _⟩⟩
  · cases ha
  · exact Option.some.inj ha ▸ hf v
  · cases ha

theorem carries_of_twoBeats {f : Word → Word → Instr} (ha : twoBeats f data = some i)
    (hf : ∀ v w, Carries [v, w] (f v w)) : Carries data i := by
  rcases data with _ | ⟨v, _ | ⟨w, _ | ⟨_, _⟩⟩⟩
  · cases ha
  · cases ha
  · exact Option.some.inj ha ▸ hf v w
  · cases ha

/-- An assembled instruction has the data beats it was assembled from, all of them, and an index that fits. -/
theorem carries_of_assemble {op : Mnemonic} {h : Word} (ha : assemble op h data = some i) : Carries data i := by
  have hidx : indexFits (idxField h) = true := decide_eq_true (idxField_lt h)
  cases op with
  | wmul => exact carries_of_twoBeats ha fun _ _ => ⟨rfl, rfl⟩
  | adc => exact carries_of_twoBeats ha fun _ _ => ⟨rfl, rfl⟩
  | zero => exact carries_of_noBeats ha ⟨rfl, rfl⟩
  | acc => exact carries_of_twoBeats ha fun _ _ => ⟨hidx, rfl⟩
  | muls => exact carries_of_noBeats ha ⟨rfl, rfl⟩
  | mulf => exact carries_of_noBeats ha ⟨rfl, rfl⟩
  | wra => exact carries_of_oneBeat ha fun _ => ⟨hidx, rfl⟩
  | wrb => exact carries_of_oneBeat ha fun _ => ⟨hidx, rfl⟩
  | wrp => exact carries_of_oneBeat ha fun _ => ⟨hidx, rfl⟩
  | rda => exact carries_of_noBeats ha ⟨hidx, rfl⟩
  | rdb => exact carries_of_noBeats ha ⟨hidx, rfl⟩
  | rdp => exact carries_of_noBeats ha ⟨hidx, rfl⟩
  | rds => exact carries_of_noBeats ha ⟨hidx, rfl⟩

theorem carries_of_decode {r : Request} (hd : decode r = .ok i) : Carries r.data i := by
  cases hrow : selectRow r.header with
  | none => rw [decode_of_no_row hrow] at hd; cases hd
  | some row =>
    rw [decode_of_row hrow] at hd
    cases ha : assemble row.op r.header r.data with
    | none => rw [ha] at hd; cases hd
    | some j =>
      rw [ha] at hd
      cases hd
      exact carries_of_assemble ha

/-- The packet of a decoded instruction is the request. -/
theorem encode_of_decode {r : Request} (hd : decode r = .ok i) : encode i = r := by
  rw [encode, header_of_decode hd, (carries_of_decode hd).2]

end

/-! ### Illegal headers and wrong numbers of data beats -/

/-- The first value of `idx` that a header of the format may not have (R72). -/
def Format.idxBound : Format → Nat
  | .Z => 1
  | .M => 1
  | .C => 2
  | .I => 65536
  | .W => 65536
  | .A => 65536

/-- The bound on `idx` by the `opc` of the row (R77 (c), (d)). -/
def idxBoundOf (opc : BitVec 8) : Nat :=
  if opc ∈ [0x01#8, 0x03#8, 0x05#8, 0x06#8] then 1 else if opc = 0x02#8 then 2 else 65536

theorem idxBound_eq_idxBoundOf : ∀ row ∈ opcodeTable, row.format.idxBound = idxBoundOf (opcField row.pattern) := by
  decide

/-- The thirteen values of `opc` (R77 (a)). -/
def opcodes : List (BitVec 8) :=
  [0x01#8, 0x02#8, 0x03#8, 0x04#8, 0x05#8, 0x06#8, 0x10#8, 0x11#8, 0x12#8, 0x14#8, 0x15#8, 0x16#8, 0x18#8]

theorem opcodes_eq : opcodes = opcodeTable.map fun row => opcField row.pattern := by decide

section
variable (h : Word)

/-- The bits above the low `k` bits of `idx` agree with those of a pattern iff `opc` does and the rest is zero. -/
theorem div_eq_headerOf_div (opc : BitVec 8) {k : Nat} (hk : k = 0 ∨ k = 1 ∨ k = 16) :
    h.toNat / 2 ^ k = (headerOf opc 0).toNat / 2 ^ k ↔ opcField h = opc ∧ rsvField h = 0 ∧ idxField h < 2 ^ k := by
  have hh := header_fields h
  have hi := idxField_lt h
  have ho := (opcField h).isLt
  have hc := opc.isLt
  have hv := (rsvField h).isLt
  rw [← BitVec.toNat_inj, ← BitVec.toNat_inj (y := 0), headerOf_toNat, show (0 : BitVec 40).toNat = 0 from rfl]
  obtain rfl | rfl | rfl := hk <;> omega

/-- The headers that a row selects, by the fields of the header, for the three masks of the table. -/
theorem selects_full_iff_fields (op : Mnemonic) (f : Format) (opc : BitVec 8) :
    Row.selects ⟨op, f, headerOf opc 0, 0xFFFFFFFFFFFFFFFF⟩ h = true ↔
      opcField h = opc ∧ rsvField h = 0 ∧ idxField h < 1 := by
  rw [selects_full, decide_eq_true_iff, ← BitVec.toNat_inj]
  simpa using div_eq_headerOf_div h opc (.inl rfl)

theorem selects_carry_iff_fields (op : Mnemonic) (f : Format) (opc : BitVec 8) :
    Row.selects ⟨op, f, headerOf opc 0, 0xFFFFFFFFFFFFFFFE⟩ h = true ↔
      opcField h = opc ∧ rsvField h = 0 ∧ idxField h < 2 := by
  rw [selects_carry _ _ _ _ (by rw [headerOf_toNat]; omega), decide_eq_true_iff]
  exact div_eq_headerOf_div h opc (.inr (.inl rfl))

theorem selects_index_iff_fields (op : Mnemonic) (f : Format) (opc : BitVec 8) :
    Row.selects ⟨op, f, headerOf opc 0, 0xFFFFFFFFFFFF0000⟩ h = true ↔
      opcField h = opc ∧ rsvField h = 0 ∧ idxField h < 65536 := by
  rw [selects_index _ _ _ _ (by rw [headerOf_toNat]; omega), decide_eq_true_iff]
  exact div_eq_headerOf_div h opc (.inr (.inr rfl))

/-- A row selects the headers with its `opc`, with `rsv0` zero, and with `idx` below the bound of its format. -/
theorem selects_iff_fields {row : Row} (hr : row ∈ opcodeTable) : row.selects h = true ↔
    opcField h = opcField row.pattern ∧ rsvField h = 0 ∧ idxField h < row.format.idxBound := by
  simp only [opcodeTable, List.mem_cons, List.not_mem_nil, or_false] at hr
  obtain rfl | rfl | rfl | rfl | rfl | rfl | rfl | rfl | rfl | rfl | rfl | rfl | rfl := hr
  · exact selects_full_iff_fields h .wmul .M 0x01
  · exact selects_carry_iff_fields h .adc .C 0x02
  · exact selects_full_iff_fields h .zero .Z 0x03
  · exact selects_index_iff_fields h .acc .A 0x04
  · exact selects_full_iff_fields h .muls .Z 0x05
  · exact selects_full_iff_fields h .mulf .Z 0x06
  · exact selects_index_iff_fields h .wra .W 0x10
  · exact selects_index_iff_fields h .wrb .W 0x11
  · exact selects_index_iff_fields h .wrp .W 0x12
  · exact selects_index_iff_fields h .rda .I 0x14
  · exact selects_index_iff_fields h .rdb .I 0x15
  · exact selects_index_iff_fields h .rdp .I 0x16
  · exact selects_index_iff_fields h .rds .I 0x18

/-- Which headers select no row, by their fields (R77). -/
theorem selectRow_eq_none_iff_fields : selectRow h = none ↔
    opcField h ∉ opcodes ∨ rsvField h ≠ 0 ∨ idxBoundOf (opcField h) ≤ idxField h := by
  rw [← not_iff_not, ← ne_eq, Option.ne_none_iff_exists']
  simp only [selectRow_eq_some, not_or, not_not, not_le, ne_eq, opcodes_eq, List.mem_map]
  constructor
  · rintro ⟨row, hr, hs⟩
    obtain ⟨hopc, hrsv, hidx⟩ := (selects_iff_fields h hr).mp hs
    rw [idxBound_eq_idxBoundOf row hr, ← hopc] at hidx
    exact ⟨⟨row, hr, hopc.symm⟩, hrsv, hidx⟩
  · rintro ⟨⟨row, hr, hopc⟩, hrsv, hidx⟩
    rw [← hopc, ← idxBound_eq_idxBoundOf row hr] at hidx
    exact ⟨row, hr, (selects_iff_fields h hr).mpr ⟨hopc.symm, hrsv, hidx⟩⟩

/-- `idx` reaches the bound of its `opc` in the two ways R77 names. -/
theorem idxBoundOf_le_idxField_iff : idxBoundOf (opcField h) ≤ idxField h ↔
    (opcField h ∈ [0x01#8, 0x03#8, 0x05#8, 0x06#8] ∧ idxField h ≠ 0) ∨ (opcField h = 0x02#8 ∧ 2 ≤ idxField h) := by
  have hlt := idxField_lt h
  unfold idxBoundOf
  split
  next hmem =>
    have hne : opcField h ≠ 0x02#8 := fun he => absurd (he ▸ hmem) (by decide)
    simp [hmem, hne, Nat.one_le_iff_ne_zero]
  next hmem =>
    split <;> simp [*]

end

/-- The decoder finds a request illegal iff its header selects no row, whatever the data beats. -/
theorem decode_eq_illegal_iff {r : Request} : decode r = .error .illegal ↔ selectRow r.header = none := by
  refine ⟨fun hd => ?_, decode_of_no_row⟩
  cases hrow : selectRow r.header with
  | none => rfl
  | some row =>
    rw [decode_of_row hrow] at hd
    split at hd <;> cases hd

theorem decode_of_wrong_beats {r : Request} {row : Row} (hrow : selectRow r.header = some row)
    (hlen : r.data.length ≠ row.format.dataBeats) : decode r = .error .wrongLength := by
  have hnone : assemble row.op r.header r.data = none := by
    rw [← Option.not_isSome_iff_eq_none, assemble_isSome ((selectRow_eq_some _).mp hrow).1]
    exact hlen
  rw [decode_of_row hrow, hnone]

end Sys2Proof

namespace Sys2Proof.Machine

/-! ### Requests that carry no command -/

/-- The cause that a request without a command raises (R77, R78). -/
def errorCause : DecodeError → Cause
  | .illegal => .illegal
  | .wrongLength => .cvLength

section
variable {r : Request}

theorem serveRequest_of_error {e : DecodeError} (hd : decode r = .error e) (s : State) :
    serveRequest r s = .next (s.reject (errorCause e) r.header) := by
  unfold serveRequest
  rw [hd]
  cases e <;> rfl

/-- Outside the fault state a request that carries no command is fault entry, and no bank changes. -/
theorem step_of_decode_error {e : DecodeError} (hd : decode r = .error e) {s : State} {rest : List Input}
    (hr : s.nextRequest r rest) (hf : s.cause = 0#8) :
    step s = .next (State.faultEntry { s with inbox := rest } (causeCode (errorCause e)) r.header) := by
  have hc : errorCause e ≠ .accOverflow := by cases e <;> exact nofun
  rw [step_of_nextRequest hr, serveRequest_of_error hd]
  obtain ⟨hne, -⟩ | ⟨-, he⟩ := State.reject_cases { s with inbox := rest } (errorCause e) r.header
  · exact absurd hf hne
  · rw [he, State.raiseFault_of_ne _ _ _ hc]

end

/-! ### The statements -/

/-- Settles O2: `decode_encode`, the case split over the thirteen commands. -/
theorem decodeOfEncode : Obligations.DecodeOfEncode := fun _ hi => decode_encode hi

/-- Settles O3: the header is the request's own, and so are the data beats. -/
theorem encodeOfDecode : Obligations.EncodeOfDecode := fun _ _ hd => ⟨(carries_of_decode hd).1, encode_of_decode hd⟩

/-- Settles O4: the `opc` of the rows differ, and a row's mask covers `opc`, so two rows that match are one. -/
theorem decodingSelectsTheOneRow : Obligations.DecodingSelectsTheOneRow := by
  intro h
  have hsel : ∀ row : Row, h &&& row.mask = row.pattern ↔ row.selects h = true := fun row => beq_iff_eq.symm
  refine ⟨fun row hr hm => (selectRow_eq_some h).mpr ⟨hr, (hsel row).mp hm⟩, fun r₁ h₁ r₂ h₂ hm₁ hm₂ => ?_, ?_⟩
  · exact row_of_opcField h₁ h₂ ((opcField_of_selects h₁ ((hsel r₁).mp hm₁)).symm.trans
      (opcField_of_selects h₂ ((hsel r₂).mp hm₂)))
  · simp only [selectRow_eq_none, ne_eq, hsel, Bool.not_eq_true]

/-- Settles O5: a row of the table selects a header iff the fields of the header are as the row's format asks. -/
theorem illegalHeaders : Obligations.IllegalHeaders := by
  intro r
  refine ⟨?_, fun hd s rest hr hf => step_of_decode_error hd hr hf⟩
  rw [decode_eq_illegal_iff, selectRow_eq_none_iff_fields, idxBoundOf_le_idxField_iff]
  rfl

/-- Settles O6: the operands are assembled from the right number of data beats only. -/
theorem wrongDataBeatsRaiseLength : Obligations.WrongDataBeatsRaiseLength := fun _ _ hrow hlen =>
  have hd := decode_of_wrong_beats hrow hlen
  ⟨hd, fun _ _ hr hf => step_of_decode_error hd hr hf⟩

/-- Settles O1: the five packets that carry a command are the packets of that command, and the other three are rejected
by evaluation. -/
theorem sampleHeadersDecode : Obligations.SampleHeadersDecode :=
  ⟨decode_encode (i := .wmul 0xF 0x10) rfl, decode_encode (i := .adc 1 2 true) rfl,
    decode_encode (i := .acc 2 5 7) rfl, decode_encode (i := .wra 1 0xFEDCBA9876543210) rfl,
    decode_encode (i := .rdp 65535) rfl, rfl, rfl, rfl⟩

end Sys2Proof.Machine

/-! PROOFS. The responses of `30_encoding.md` R76: every request is answered once, with the result beats of its
command. -/

namespace Sys2Proof.Machine

/-! ### The response to a request -/

/-- From `s` to `t` one response was sent, of a legal code, with `k` result beats if the code is OK and none if it is
another. -/
def AnsweredOnce (k : Nat) (s t : State) : Prop :=
  ∃ resp : Response, t.sent = s.sent ++ [resp] ∧ resp.code.toNat ≤ 6 ∧ (resp.code ≠ 0#8 → resp.results = []) ∧
    (resp.code = 0#8 → resp.results.length = k)

section
variable {k : Nat} {s u : State} {hdr : Word}

theorem answeredOnce_ok (hu : u.sent = s.sent) {results : List Word} (hk : results.length = k) :
    AnsweredOnce k s (u.ok results) :=
  ⟨⟨0, results⟩, by rw [State.ok_sent, hu], Nat.zero_le 6, fun h => absurd rfl h, fun _ => hk⟩

theorem answeredOnce_refuse : AnsweredOnce k s s.refuse :=
  ⟨⟨6, []⟩, s.refuse_sent, by decide, fun _ => rfl, fun h => absurd h (by decide)⟩

theorem answeredOnce_raiseFault (c : Cause) : AnsweredOnce k s (s.raiseFault c hdr) :=
  ⟨⟨causeCode c, []⟩, s.raiseFault_sent c hdr, (causeCode_range c).2.trans (by decide), fun _ => rfl,
    fun h => absurd h (causeCode_ne_zero c)⟩

theorem answeredOnce_reject (c : Cause) : AnsweredOnce k s (s.reject c hdr) := by
  obtain ⟨-, he⟩ | ⟨-, he⟩ := s.reject_cases c hdr <;> rw [he]
  · exact answeredOnce_refuse
  · exact answeredOnce_raiseFault c

/-- Of a command's own rule only the answer has to be looked at. -/
theorem answeredOnce_commence {check : Option Cause} {run : State → State} (hrun : AnsweredOnce k s (run s)) :
    AnsweredOnce k s (s.commence hdr check run) := by
  obtain ⟨-, he⟩ | ⟨c, -, -, he⟩ | ⟨-, -, he⟩ := s.commence_cases hdr check run <;> rw [he]
  · exact answeredOnce_refuse
  · exact answeredOnce_raiseFault c
  · exact hrun

theorem execAcc_answeredOnce (off : Nat) (lo hi : Word) (s : State) :
    ∃ t, execAcc off lo hi s = .next t ∧ AnsweredOnce 0 s t := by
  refine ⟨_, rfl, answeredOnce_commence ?_⟩
  split
  · exact answeredOnce_raiseFault _
  · exact answeredOnce_ok rfl rfl

theorem execRds_answeredOnce (r : Nat) (s : State) : ∃ t, execRds r s = .next t ∧ AnsweredOnce 1 s t := by
  unfold execRds
  cases checkRegister r with
  | none => exact ⟨_, rfl, answeredOnce_ok rfl rfl⟩
  | some c => exact ⟨_, rfl, answeredOnce_reject c⟩

/-- Every command answers once, with as many result beats as R76 gives it. -/
theorem exec_answeredOnce (i : Instr) (s : State) : ∃ t, exec i s = .next t ∧ AnsweredOnce (resultBeats i) s t := by
  cases i with
  | wmul a b => exact ⟨_, rfl, answeredOnce_commence (answeredOnce_ok rfl rfl)⟩
  | adc a b cin => exact ⟨_, rfl, answeredOnce_commence (answeredOnce_ok rfl rfl)⟩
  | zero => exact ⟨_, rfl, answeredOnce_commence (answeredOnce_ok rfl rfl)⟩
  | acc off lo hi => exact execAcc_answeredOnce off lo hi s
  | muls => exact ⟨_, rfl, answeredOnce_commence (answeredOnce_ok rfl rfl)⟩
  | mulf => exact ⟨_, rfl, answeredOnce_commence (answeredOnce_ok rfl rfl)⟩
  | wra k v => exact ⟨_, rfl, answeredOnce_commence (answeredOnce_ok rfl rfl)⟩
  | wrb k v => exact ⟨_, rfl, answeredOnce_commence (answeredOnce_ok rfl rfl)⟩
  | wrp k v => exact ⟨_, rfl, answeredOnce_commence (answeredOnce_ok rfl rfl)⟩
  | rda k => exact ⟨_, rfl, answeredOnce_commence (answeredOnce_ok rfl rfl)⟩
  | rdb k => exact ⟨_, rfl, answeredOnce_commence (answeredOnce_ok rfl rfl)⟩
  | rdp k => exact ⟨_, rfl, answeredOnce_commence (answeredOnce_ok rfl rfl)⟩
  | rds r => exact execRds_answeredOnce r s

/-- How many result beats a request has on OK: those of its command, none where it carries none. -/
def requestBeats (r : Request) : Nat :=
  match decode r with
  | .ok i => resultBeats i
  | .error _ => 0

theorem serveRequest_answeredOnce (r : Request) (s : State) :
    ∃ t, serveRequest r s = .next t ∧ AnsweredOnce (requestBeats r) s t := by
  cases hd : decode r with
  | ok i =>
    simp only [serveRequest, requestBeats, hd]
    exact exec_answeredOnce i s
  | error e => exact ⟨_, serveRequest_of_error hd s, answeredOnce_reject _⟩

theorem Served.inbox_eq {t : State} (h : Served hdr s t) : t.inbox = s.inbox := by
  cases h <;> simp

end

/-- The status beat has bits 63:8 zero (R76). -/
theorem statusBeat_lt (code : BitVec 8) : (code.setWidth 64 : Word).toNat < 256 := by
  have h := code.isLt
  rw [BitVec.toNat_setWidth_of_le (by decide)]
  omega

/-- Settles O12: the request is answered once, and only its own entry leaves the port. -/
theorem oneResponsePerRequest : Obligations.OneResponsePerRequest := by
  intro s t r rest hr ht
  obtain ⟨u, hu, resp, hsent, hcode, hfail, hok⟩ := serveRequest_answeredOnce r { s with inbox := rest }
  obtain rfl : u = t := by rwa [step_of_nextRequest hr, hu, Host.Outcome.next.injEq] at ht
  refine ⟨resp, hsent, hcode, hfail, fun i hd h0 => ?_, rfl, statusBeat_lt _, (served_of_nextRequest hr ht).inbox_eq⟩
  rw [hok h0, requestBeats, hd]

end Sys2Proof.Machine

/-! PROOFS. The assembler of `30_encoding.md` R79: a line and a text stand for the instruction that is written so. -/

namespace Sys2Proof.Machine

/-! ### Lines as data -/

/-- A number is a data operand iff it is the value of a word: none is truncated (R80). -/
theorem wordOperand_eq_some {v : Nat} {w : Word} : wordOperand v = some w ↔ v = w.toNat := by
  have hw := word_lt w
  unfold wordOperand
  constructor
  · intro h
    split at h
    next hv =>
      obtain rfl := Option.some.inj h
      exact (Nat.mod_eq_of_lt hv).symm
    next => cases h
  · rintro rfl
    rw [if_pos hw, BitVec.ofNat_toNat, BitVec.setWidth_eq]

theorem indexOperand_eq_some {k i : Nat} : indexOperand k = some i ↔ indexFits i = true ∧ k = i := by
  simp only [indexOperand, Option.ite_none_right_eq_some, Option.some.injEq]
  exact ⟨fun ⟨hk, he⟩ => ⟨he ▸ hk, he⟩, fun ⟨hi, he⟩ => ⟨he ▸ hi, he⟩⟩

theorem carryOperand_eq_some {c : Nat} {b : Bool} : carryOperand c = some b ↔ c = b.toNat := by
  rcases c with _ | _ | c <;> cases b <;> simp [carryOperand]

section
variable {i : Instr} {l : List Nat}

theorem bareLine_eq_some {j : Instr} : bareLine j l = some i ↔ l = [] ∧ j = i := by
  cases l <;> simp [bareLine]

theorem indexLine_eq_some {f : Nat → Instr} :
    indexLine f l = some i ↔ ∃ k, indexFits k = true ∧ l = [k] ∧ f k = i := by
  rcases l with _ | ⟨k, _ | ⟨_, _⟩⟩
  · simp [indexLine]
  · simp [indexLine, Option.bind_eq_some_iff, indexOperand_eq_some]
  · simp [indexLine]

theorem indexWordLine_eq_some {f : Nat → Word → Instr} :
    indexWordLine f l = some i ↔ ∃ k v, indexFits k = true ∧ l = [k, v.toNat] ∧ f k v = i := by
  rcases l with _ | ⟨k, _ | ⟨v, _ | ⟨_, _⟩⟩⟩
  · simp [indexWordLine]
  · simp [indexWordLine]
  · simp [indexWordLine, Option.bind_eq_some_iff, indexOperand_eq_some, wordOperand_eq_some, and_assoc]
  · simp [indexWordLine]

theorem wmulLine_eq_some : wmulLine l = some i ↔ ∃ a b : Word, l = [a.toNat, b.toNat] ∧ .wmul a b = i := by
  rcases l with _ | ⟨a, _ | ⟨b, _ | ⟨_, _⟩⟩⟩
  · simp [wmulLine]
  · simp [wmulLine]
  · simp [wmulLine, Option.bind_eq_some_iff, wordOperand_eq_some, and_assoc]
  · simp [wmulLine]

theorem adcLine_eq_some :
    adcLine l = some i ↔ ∃ (a b : Word) (cin : Bool), l = [a.toNat, b.toNat, cin.toNat] ∧ .adc a b cin = i := by
  rcases l with _ | ⟨a, _ | ⟨b, _ | ⟨c, _ | ⟨_, _⟩⟩⟩⟩
  · simp [adcLine]
  · simp [adcLine]
  · simp [adcLine]
  · simp [adcLine, Option.bind_eq_some_iff, wordOperand_eq_some, carryOperand_eq_some, and_assoc]
  · simp [adcLine]

theorem accLine_eq_some : accLine l = some i ↔
    ∃ (off : Nat) (lo hi : Word), indexFits off = true ∧ l = [off, lo.toNat, hi.toNat] ∧ .acc off lo hi = i := by
  rcases l with _ | ⟨off, _ | ⟨lo, _ | ⟨hi, _ | ⟨_, _⟩⟩⟩⟩
  · simp [accLine]
  · simp [accLine]
  · simp [accLine]
  · simp [accLine, Option.bind_eq_some_iff, indexOperand_eq_some, wordOperand_eq_some, and_assoc]
  · simp [accLine]

end

theorem assembleLine_lineOf {i : Instr} (hw : i.wellFormed = true) : assembleLine (lineOf i) = some i := by
  cases i with
  | wmul a b => exact wmulLine_eq_some.mpr ⟨a, b, rfl, rfl⟩
  | adc a b cin => exact adcLine_eq_some.mpr ⟨a, b, cin, rfl, rfl⟩
  | zero => rfl
  | acc off lo hi => exact accLine_eq_some.mpr ⟨off, lo, hi, hw, rfl, rfl⟩
  | muls => rfl
  | mulf => rfl
  | wra k v => exact indexWordLine_eq_some.mpr ⟨k, v, hw, rfl, rfl⟩
  | wrb k v => exact indexWordLine_eq_some.mpr ⟨k, v, hw, rfl, rfl⟩
  | wrp k v => exact indexWordLine_eq_some.mpr ⟨k, v, hw, rfl, rfl⟩
  | rda k => exact indexLine_eq_some.mpr ⟨k, hw, rfl, rfl⟩
  | rdb k => exact indexLine_eq_some.mpr ⟨k, hw, rfl, rfl⟩
  | rdp k => exact indexLine_eq_some.mpr ⟨k, hw, rfl, rfl⟩
  | rds r => exact indexLine_eq_some.mpr ⟨r, hw, rfl, rfl⟩

/-- A line assembles only to the well-formed instruction whose line it is: every operand is read whole. -/
theorem lineOf_of_assembleLine {line : AsmLine} {i : Instr} (h : assembleLine line = some i) :
    i.wellFormed = true ∧ lineOf i = line := by
  obtain ⟨op, operands⟩ := line
  cases op with
  | wmul => obtain ⟨a, b, rfl, rfl⟩ := wmulLine_eq_some.mp h; exact ⟨rfl, rfl⟩
  | adc => obtain ⟨a, b, cin, rfl, rfl⟩ := adcLine_eq_some.mp h; exact ⟨rfl, rfl⟩
  | zero => obtain ⟨rfl, rfl⟩ := bareLine_eq_some.mp h; exact ⟨rfl, rfl⟩
  | acc => obtain ⟨off, lo, hi, hw, rfl, rfl⟩ := accLine_eq_some.mp h; exact ⟨hw, rfl⟩
  | muls => obtain ⟨rfl, rfl⟩ := bareLine_eq_some.mp h; exact ⟨rfl, rfl⟩
  | mulf => obtain ⟨rfl, rfl⟩ := bareLine_eq_some.mp h; exact ⟨rfl, rfl⟩
  | wra => obtain ⟨k, v, hw, rfl, rfl⟩ := indexWordLine_eq_some.mp h; exact ⟨hw, rfl⟩
  | wrb => obtain ⟨k, v, hw, rfl, rfl⟩ := indexWordLine_eq_some.mp h; exact ⟨hw, rfl⟩
  | wrp => obtain ⟨k, v, hw, rfl, rfl⟩ := indexWordLine_eq_some.mp h; exact ⟨hw, rfl⟩
  | rda => obtain ⟨k, hw, rfl, rfl⟩ := indexLine_eq_some.mp h; exact ⟨hw, rfl⟩
  | rdb => obtain ⟨k, hw, rfl, rfl⟩ := indexLine_eq_some.mp h; exact ⟨hw, rfl⟩
  | rdp => obtain ⟨k, hw, rfl, rfl⟩ := indexLine_eq_some.mp h; exact ⟨hw, rfl⟩
  | rds => obtain ⟨k, hw, rfl, rfl⟩ := indexLine_eq_some.mp h; exact ⟨hw, rfl⟩

/-- The operands of a well-formed instruction are words. -/
theorem lineOf_operand_lt {i : Instr} (hw : i.wellFormed = true) : ∀ n ∈ (lineOf i).operands, n < beta := by
  have hindex {k : Nat} (hk : indexFits k = true) : k < beta :=
    (show k < 65536 from of_decide_eq_true hk).trans (by decide)
  have hcarry (cin : Bool) : cin.toNat < beta := cin.toNat_lt.trans (by decide)
  cases i with
  | wmul a b => simp [lineOf, word_lt a, word_lt b]
  | adc a b cin => simp [lineOf, word_lt a, word_lt b, hcarry cin]
  | zero => exact nofun
  | acc off lo hi => simp [lineOf, hindex hw, word_lt lo, word_lt hi]
  | muls => exact nofun
  | mulf => exact nofun
  | wra k v => simp [lineOf, hindex hw, word_lt v]
  | wrb k v => simp [lineOf, hindex hw, word_lt v]
  | wrp k v => simp [lineOf, hindex hw, word_lt v]
  | rda k => simp [lineOf, hindex hw]
  | rdb k => simp [lineOf, hindex hw]
  | rdp k => simp [lineOf, hindex hw]
  | rds r => simp [lineOf, hindex hw]

/-! ### The characters of a text -/

/-- A character that neither stands between the parts of a line nor starts a comment. -/
def isPlain (c : Char) : Bool := !isBlank c && c != ',' && c != ';'

/-- Every character is plain. -/
def Plain (cs : List Char) : Prop := ∀ c ∈ cs, isPlain c = true

/-- The text begins and ends with characters that `trim` keeps. -/
def Trimmed (cs : List Char) : Prop :=
  (∃ c rest, cs = c :: rest ∧ isBlank c = false) ∧ ∃ rest c, cs = rest ++ [c] ∧ isBlank c = false

theorem not_isBlank_of_isPlain {c : Char} (h : isPlain c = true) : isBlank c = false := by
  simp_all [isPlain]

theorem trim_of_trimmed {cs : List Char} (h : Trimmed cs) : trim cs = cs := by
  obtain ⟨⟨c, rest, hbegin, hc⟩, rest', c', hend, hc'⟩ := h
  have hfront : cs.dropWhile isBlank = cs := by simp [hbegin, hc]
  have hback : cs.reverse.dropWhile isBlank = cs.reverse := by simp [hend, hc']
  rw [trim, hfront, hback, List.reverse_reverse]

theorem trim_blank_cons (cs : List Char) : trim (' ' :: cs) = trim cs := rfl

theorem Plain.trimmed {cs : List Char} (h : Plain cs) (hne : cs ≠ []) : Trimmed cs := by
  refine ⟨?_, cs.dropLast, cs.getLast hne, (List.dropLast_concat_getLast hne).symm,
    not_isBlank_of_isPlain (h _ (List.getLast_mem hne))⟩
  obtain ⟨c, rest, rfl⟩ := List.exists_cons_of_ne_nil hne
  exact ⟨c, rest, rfl, not_isBlank_of_isPlain (h c List.mem_cons_self)⟩

/-- What stands between two trimmed texts does not matter. -/
theorem Trimmed.append {cs ds : List Char} (hc : Trimmed cs) (hd : Trimmed ds) (mid : List Char) :
    Trimmed (cs ++ (mid ++ ds)) := by
  obtain ⟨⟨c, rest, rfl, hb⟩, -⟩ := hc
  obtain ⟨-, rest', c', rfl, hb'⟩ := hd
  exact ⟨⟨c, _, rfl, hb⟩, c :: rest ++ (mid ++ rest'), c', by simp, hb'⟩

theorem hexDigit_plain {d : Nat} (hd : d < 16) : isPlain (hexDigit d) = true := by
  have : ∀ d < 16, isPlain (hexDigit d) = true := by decide
  exact this d hd

theorem hexDigits_plain (k n : Nat) : Plain (hexDigits k n) := by
  induction k generalizing n with
  | zero => exact nofun
  | succ k ih =>
    have hlast : Plain [hexDigit (n % 16)] := List.forall_mem_singleton.mpr (hexDigit_plain (Nat.mod_lt _ (by decide)))
    exact List.forall_mem_append.mpr ⟨ih (n / 16), hlast⟩

theorem wordText_plain (n : Nat) : Plain (wordText n) :=
  List.forall_mem_cons.mpr ⟨by decide, List.forall_mem_cons.mpr ⟨by decide, hexDigits_plain 16 n⟩⟩

theorem wordText_trimmed (n : Nat) : Trimmed (wordText n) := (wordText_plain n).trimmed nofun

theorem mnemonicText_plain (m : Mnemonic) : Plain (mnemonicText m) := by
  cases m <;> exact List.all_eq_true.mp rfl

theorem mnemonicText_ne_nil (m : Mnemonic) : mnemonicText m ≠ [] := by
  cases m <;> exact nofun

theorem readMnemonic_mnemonicText (m : Mnemonic) : readMnemonic (mnemonicText m) = some m := by
  cases m <;> rfl

/-! ### Reading a number -/

theorem digitValue_hexDigit {d : Nat} (hd : d < 16) : digitValue (hexDigit d) = some d := by
  have : ∀ d < 16, digitValue (hexDigit d) = some d := by decide
  exact this d hd

/-- Reading the digits written for a number appends them to the number read so far. -/
theorem readDigits_hexDigits (k n acc : Nat) (cs : List Char) :
    readDigits 16 acc (hexDigits k n ++ cs) = readDigits 16 (acc * 16 ^ k + n % 16 ^ k) cs := by
  induction k generalizing n cs with
  | zero => simp [hexDigits, Nat.mod_one]
  | succ k ih =>
    have hd : n % 16 < 16 := Nat.mod_lt _ (by decide)
    have hsplit : (acc * 16 ^ k + n / 16 % 16 ^ k) * 16 + n % 16 = acc * 16 ^ (k + 1) + n % 16 ^ (k + 1) := by
      rw [Nat.pow_succ', Nat.mod_mul]
      ring
    rw [hexDigits, List.append_assoc, ih, List.singleton_append, readDigits, digitValue_hexDigit hd]
    simp only [hd, if_true, hsplit]

theorem readNumber_hexadecimal {ds : List Char} (hne : ds ≠ []) :
    readNumber ('0' :: 'x' :: ds) = readDigits 16 0 ds := by
  cases ds with
  | nil => exact absurd rfl hne
  | cons d ds => rfl

theorem hexDigits_succ_ne_nil (k n : Nat) : hexDigits (k + 1) n ≠ [] := by simp [hexDigits]

theorem readNumber_wordText {n : Nat} (hn : n < beta) : readNumber (wordText n) = some n := by
  have hread := readDigits_hexDigits 16 n 0 []
  rw [List.append_nil, Nat.zero_mul, Nat.zero_add, Nat.mod_eq_of_lt (show n < 16 ^ 16 from hn)] at hread
  rw [wordText, readNumber_hexadecimal (hexDigits_succ_ne_nil 15 n), hread, readDigits]

theorem readRegister_wordText {n : Nat} (hn : n < beta) : readRegister (wordText n) = some n := by
  simp only [readRegister, wordText, List.cons.injEq, Char.reduceEq, false_and, if_false]
  exact readNumber_wordText hn

/-! ### Reading the operands -/

theorem splitCommas_cons {c : Char} {cs piece : List Char} {rest : List (List Char)} (hc : c ≠ ',')
    (h : splitCommas cs = piece :: rest) : splitCommas (c :: cs) = (c :: piece) :: rest := by
  rw [splitCommas, if_neg hc, h]

theorem ne_comma_of_isPlain {c : Char} (h : isPlain c = true) : c ≠ ',' := by
  rintro rfl
  exact absurd h (by decide)

theorem splitCommas_plain {cs : List Char} (h : Plain cs) : splitCommas cs = [cs] := by
  induction cs with
  | nil => rfl
  | cons c cs ih =>
    obtain ⟨hc, hcs⟩ := List.forall_mem_cons.mp h
    exact splitCommas_cons (ne_comma_of_isPlain hc) (ih hcs)

theorem splitCommas_plain_comma {cs : List Char} (h : Plain cs) (ds : List Char) :
    splitCommas (cs ++ ',' :: ds) = cs :: splitCommas ds := by
  induction cs with
  | nil => rfl
  | cons c cs ih =>
    obtain ⟨hc, hcs⟩ := List.forall_mem_cons.mp h
    exact splitCommas_cons (ne_comma_of_isPlain hc) (ih hcs)

theorem operandsText_cons_cons (n m : Nat) (ns : List Nat) :
    operandsText (n :: m :: ns) = wordText n ++ ',' :: ' ' :: operandsText (m :: ns) := rfl

/-- The pieces between the commas of the operands, each with the blank that stands before it. -/
theorem splitCommas_operandsText {ns : List Nat} (hne : ns ≠ []) :
    splitCommas (' ' :: operandsText ns) = ns.map fun n => ' ' :: wordText n := by
  induction ns with
  | nil => exact absurd rfl hne
  | cons n ns ih =>
    cases ns with
    | nil => exact splitCommas_cons nofun (splitCommas_plain (wordText_plain n))
    | cons m ns =>
      rw [operandsText_cons_cons, splitCommas_cons (by decide) (splitCommas_plain_comma (wordText_plain n) _), ih nofun]
      rfl

theorem operandsText_trimmed {ns : List Nat} (hne : ns ≠ []) : Trimmed (operandsText ns) := by
  induction ns with
  | nil => exact absurd rfl hne
  | cons n ns ih =>
    cases ns with
    | nil => exact wordText_trimmed n
    | cons m ns => exact (wordText_trimmed n).append (ih nofun) [',', ' ']

theorem Trimmed.ne_nil {cs : List Char} (h : Trimmed cs) : cs ≠ [] := by
  obtain ⟨⟨c, rest, rfl, -⟩, -⟩ := h
  exact nofun

/-- Operands are read back as they were written. -/
theorem readOperands_operandsText {read : List Char → Option Nat} {ns : List Nat} (hne : ns ≠ [])
    (hread : ∀ n ∈ ns, read (wordText n) = some n) : readOperands read (' ' :: operandsText ns) = some ns := by
  have htrim := trim_of_trimmed (operandsText_trimmed hne)
  rw [readOperands, trim_blank_cons, htrim, if_neg (operandsText_trimmed hne).ne_nil, splitCommas_operandsText hne]
  clear hne htrim
  induction ns with
  | nil => rfl
  | cons n ns ih =>
    obtain ⟨hn, hns⟩ := List.forall_mem_cons.mp hread
    rw [List.map_cons, List.mapM_cons, trim_blank_cons, trim_of_trimmed (wordText_trimmed n), hn, ih hns]
    rfl

/-! ### Reading a line -/

/-- The part of a text after its mnemonic. -/
def operandPart : List Nat → List Char
  | [] => []
  | ns => ' ' :: operandsText ns

theorem textOf_eq (i : Instr) : textOf i = mnemonicText (lineOf i).op ++ operandPart (lineOf i).operands := by
  unfold textOf
  cases (lineOf i).operands with
  | nil => exact (List.append_nil _).symm
  | cons n ns => rfl

/-- The text holds no character that starts a comment. -/
def NoComment (cs : List Char) : Prop := ∀ c ∈ cs, (c != ';') = true

theorem Plain.noComment {cs : List Char} (h : Plain cs) : NoComment cs := fun c hc => by
  have hplain := h c hc
  rw [isPlain, Bool.and_eq_true] at hplain
  exact hplain.2

theorem NoComment.append {cs ds : List Char} (hc : NoComment cs) (hd : NoComment ds) : NoComment (cs ++ ds) :=
  List.forall_mem_append.mpr ⟨hc, hd⟩

theorem operandsText_noComment (ns : List Nat) : NoComment (operandsText ns) := by
  induction ns with
  | nil => exact nofun
  | cons n ns ih =>
    cases ns with
    | nil => exact (wordText_plain n).noComment
    | cons m ns =>
      have hcomma : NoComment [',', ' '] := List.all_eq_true.mp rfl
      exact (wordText_plain n).noComment.append (hcomma.append ih)

theorem operandPart_noComment (ns : List Nat) : NoComment (operandPart ns) := by
  cases ns with
  | nil => exact nofun
  | cons n ns => exact List.forall_mem_cons.mpr ⟨rfl, operandsText_noComment _⟩

theorem textOf_trimmed (i : Instr) : Trimmed (textOf i) := by
  have hword := (mnemonicText_plain (lineOf i).op).trimmed (mnemonicText_ne_nil _)
  rw [textOf_eq]
  cases (lineOf i).operands with
  | nil => exact (List.append_nil _).symm ▸ hword
  | cons n ns => exact hword.append (operandsText_trimmed (List.cons_ne_nil n ns)) [' ']

/-- Neither the comment nor the blanks at the ends of a line take anything from the text of an instruction. -/
theorem trim_beforeComment_textOf (i : Instr) : trim (beforeComment (textOf i)) = textOf i := by
  have hno : NoComment (textOf i) :=
    textOf_eq i ▸ (mnemonicText_plain _).noComment.append (operandPart_noComment _)
  rw [beforeComment, List.takeWhile_eq_self_iff.mpr hno, trim_of_trimmed (textOf_trimmed i)]

/-- The first word of a text is its mnemonic. -/
theorem firstWord_textOf (i : Instr) :
    firstWord (textOf i) = (mnemonicText (lineOf i).op, operandPart (lineOf i).operands) := by
  have hword : ∀ c ∈ mnemonicText (lineOf i).op, (!isBlank c) = true := fun c hc => by
    rw [not_isBlank_of_isPlain (mnemonicText_plain _ c hc)]; rfl
  rw [firstWord, trim_beforeComment_textOf, textOf_eq, List.takeWhile_append_of_pos hword,
    List.dropWhile_append_of_pos hword]
  cases (lineOf i).operands with
  | nil => rw [operandPart]; simp
  | cons n ns => simp [operandPart, isBlank]

/-- The operands of a text are read as the operands of its line, and the registers of RDS too. -/
theorem readOperands_operandPart {i : Instr} (hw : i.wellFormed = true) :
    readOperands (if (lineOf i).op = .rds then readRegister else readNumber) (operandPart (lineOf i).operands) =
      some (lineOf i).operands := by
  have hlt := lineOf_operand_lt hw
  have hread : ∀ n ∈ (lineOf i).operands,
      (if (lineOf i).op = .rds then readRegister else readNumber) (wordText n) = some n := fun n hn => by
    split
    · exact readRegister_wordText (hlt n hn)
    · exact readNumber_wordText (hlt n hn)
  generalize (lineOf i).operands = ns at hread
  cases ns with
  | nil => rfl
  | cons n ns => exact readOperands_operandsText nofun hread

theorem assembleText_textOf {i : Instr} (hw : i.wellFormed = true) : assembleText (textOf i) = some i := by
  rw [assembleText, firstWord_textOf]
  simp only [readMnemonic_mnemonicText, readOperands_operandPart hw]
  exact assembleLine_lineOf hw

/-- Settles O7: a line is read operand by operand, and a text is cut where it was put together. -/
theorem assemblerLinesRoundTrip : Obligations.AssemblerLinesRoundTrip :=
  ⟨fun _ hw => ⟨assembleLine_lineOf hw, assembleText_textOf hw⟩, fun _ _ h => lineOf_of_assembleLine h⟩

end Sys2Proof.Machine

/-! PROOFS. The sequences of commands of `30_encoding.md`: the pseudo-instructions (R80) and the host-driven schoolbook
(R81). -/

namespace Sys2Proof.Machine

/-! ### Running a list of commands -/

section
variable {s t : State}

theorem drive_of_exec {i : Instr} (h : exec i s = .next t) : s.drive i = t := by
  unfold State.drive
  rw [h]

theorem driveAll_range_succ (f : Nat → Instr) (k : Nat) :
    s.driveAll ((List.range (k + 1)).map f) = (s.driveAll ((List.range k).map f)).drive (f k) := by
  simp [State.driveAll, List.range_succ]

@[simp] theorem lastResult_ok (results : List Word) (k : Nat) : (s.ok results).lastResult k = results.getD k 0#64 := by
  simp [State.lastResult]

end

/-! ### The commands of the sequences, outside the fault state -/

theorem exec_muls_of_ok {s : State} (hf : s.cause = 0#8) :
    exec .muls s = .next ((s.setProduct (schoolbook s.n s.a s.b)).ok []) :=
  congrArg _ (s.commence_of_none hf)

theorem drive_zero_of_ok {s : State} (hf : s.cause = 0#8) :
    s.drive .zero = (s.setProduct (zeroedProduct s.n)).ok [] :=
  drive_of_exec (congrArg _ (s.commence_of_none hf))

theorem drive_wmul_of_ok {s : State} (hf : s.cause = 0#8) (x y : Word) :
    s.drive (.wmul x y) = s.ok [(wmul64 x y).1, (wmul64 x y).2] :=
  drive_of_exec (congrArg _ (s.commence_of_none hf))

theorem drive_acc_of_settled {s : State} {off : Nat} {lo hi : Word} (hf : s.cause = 0#8) (ho : off + 2 ≤ 2 * s.n)
    (hc : (accumulate s.n off lo hi s.p).2 = false) :
    s.drive (.acc off lo hi) = (s.setProduct (accumulate s.n off lo hi s.p).1).ok [] := by
  refine drive_of_exec (congrArg _ ((State.commence_of_passed hf (checkOffset_eq_none.mpr ho)).trans ?_))
  rw [hc]
  rfl

/-! ### SETA and SETB -/

theorem State.bank_setLimb_self (s : State) (x : Bank) (i : Nat) (v : Word) :
    (s.setLimb x i v).bank x = (s.bank x).set i v := by
  cases x <;> rfl

/-- Writing limbs 0 to `k - 1` of a bank one by one, by a command `write` that writes the limb of its operands, leaves
the words written in front of the rest of the bank, and nothing else changes. -/
theorem driveAll_writes {s : State} {x : Bank} {write : Nat → Word → Instr} (limbs : Nat → Word)
    (hwrite : ∀ (t : State) (i : Nat), t.cause = 0#8 → i < t.n →
      exec (write i (limbs i)) t = .next ((t.setLimb x i (limbs i)).ok []))
    (hf : s.cause = 0#8) (hlen : (s.bank x).length = s.n) {k : Nat} (hk : k ≤ s.n) :
    let t := s.driveAll ((List.range k).map fun i => write i (limbs i))
    t.n = s.n ∧ t.cause = 0#8 ∧ t.bank x = (List.range k).map limbs ++ (s.bank x).drop k ∧
      ∀ y, x ≠ y → t.bank y = s.bank y := by
  induction k with
  | zero => exact ⟨rfl, hf, rfl, fun _ _ => rfl⟩
  | succ k ih =>
    obtain ⟨hn, hcause, hx, hy⟩ := ih (by omega)
    rw [driveAll_range_succ, drive_of_exec (hwrite _ k hcause (by omega))]
    refine ⟨(State.setLimb_n ..).trans hn, (State.setLimb_cause ..).trans hcause, ?_, fun y hne => ?_⟩
    · have hdrop := List.drop_eq_getElem_cons (l := s.bank x) (i := k) (by omega)
      refine (State.bank_setLimb_self ..).trans ?_
      rw [hx, hdrop, List.set_append_right _ _ (by simp), List.range_succ, List.map_append, List.append_assoc]
      simp only [List.length_map, List.length_range, Nat.sub_self, List.set_cons_zero]
      rfl
    · exact (State.bank_setLimb_ok_of_ne hne ..).trans (hy y hne)

theorem limbOf_toNat (i v : Nat) : (limbOf i v).toNat = v / beta ^ i % beta := by simp [limbOf]

/-- The limbs of an integer, put together again (R80). -/
theorem val_map_limbOf (n v : Nat) : val ((List.range n).map fun i => limbOf i v) = v % beta ^ n := by
  induction n with
  | zero => simp [Nat.mod_one]
  | succ n ih =>
    rw [List.range_succ, List.map_append, val_append, ih, Nat.mod_pow_succ]
    simp [limbOf_toNat]

theorem limbOf_eq (i v : Nat) : limbOf i v = BitVec.ofNat 64 (v / (2 ^ 64) ^ i % 2 ^ 64) := by
  apply BitVec.eq_of_toNat_eq
  rw [limbOf_toNat, BitVec.toNat_ofNat, Nat.mod_mod]
  rfl

/-- What SETA and SETB leave, said for the command that writes the bank: the integer in the bank. -/
theorem driveAll_set {s : State} {x : Bank} {write : Nat → Word → Instr}
    (hwrite : ∀ (t : State) (i : Nat) (v : Word), t.cause = 0#8 → i < t.n →
      exec (write i v) t = .next ((t.setLimb x i v).ok []))
    (hf : s.cause = 0#8) (hlen : (s.bank x).length = s.n) {v : Nat} (hv : v < beta ^ s.n) :
    let t := s.driveAll ((List.range s.n).map fun i => write i (limbOf i v))
    val (t.bank x) = v ∧ t.cause = 0#8 ∧ ∀ y, x ≠ y → t.bank y = s.bank y := by
  obtain ⟨-, hcause, hx, hy⟩ := driveAll_writes (limbOf · v) (fun t i => hwrite t i _) hf hlen le_rfl
  refine ⟨?_, hcause, hy⟩
  rw [hx, List.drop_eq_nil_of_le hlen.le, List.append_nil, val_map_limbOf, Nat.mod_eq_of_lt hv]

/-! ### GETP -/

/-- Reading limbs 0 to `k - 1` of bank P answers them in order and changes nothing else. -/
theorem driveAll_reads {s : State} (hf : s.cause = 0#8) (hlen : s.p.length = 2 * s.n) {k : Nat} (hk : k ≤ 2 * s.n) :
    s.driveAll ((List.range k).map .rdp) = { s with sent := s.sent ++ (s.p.take k).map fun w => ⟨0#8, [w]⟩ } := by
  induction k with
  | zero => simp [State.driveAll]
  | succ k ih =>
    have hlt : k < s.p.length := by omega
    have hread (log : List Response) := exec_rdp_of_lt (s := { s with sent := log }) hf hk
    rw [driveAll_range_succ, ih (by omega), drive_of_exec (hread _), List.take_succ_eq_append_getElem hlt,
      State.limb_P, List.getD_eq_getElem _ _ hlt, List.map_append, ← List.append_assoc]
    rfl

/-! ### The partial products of a schoolbook multiplication -/

/-- What the pair (i, j) adds to bank P: the product of the two limbs at its place (R140). -/
def pairTerm (a b : List Word) (ij : Nat × Nat) : Nat :=
  (a.getD ij.1 0#64).toNat * (b.getD ij.2 0#64).toNat * beta ^ (ij.1 + ij.2)

/-- The value of a vector as the sum of its limbs at their places. -/
theorem val_eq_sum (xs : List Word) :
    val xs = ((List.range xs.length).map fun i => (xs.getD i 0#64).toNat * beta ^ i).sum := by
  induction xs with
  | nil => rfl
  | cons x xs ih =>
    have hshift (i : Nat) : ((x :: xs).getD (i + 1) 0#64).toNat * beta ^ (i + 1) =
        beta * ((xs.getD i 0#64).toNat * beta ^ i) := by
      rw [List.getD_cons_succ, Nat.pow_succ]
      ac_rfl
    rw [val_cons, ih, List.length_cons, List.range_succ_eq_map, List.map_cons, List.map_map, List.sum_cons,
      ← List.sum_map_mul_left]
    simp only [List.getD_cons_zero, Nat.pow_zero, Nat.mul_one, Function.comp_def, Nat.succ_eq_add_one, hshift]

/-- All N² partial products together are the product of the operands. -/
theorem sum_pairTerm_rowMajor {n : Nat} {a b : List Word} (ha : a.length = n) (hb : b.length = n) :
    ((rowMajor n).map (pairTerm a b)).sum = val a * val b := by
  have hterm (i j : Nat) : pairTerm a b (i, j) =
      (a.getD i 0#64).toNat * beta ^ i * ((b.getD j 0#64).toNat * beta ^ j) := by
    rw [pairTerm, Nat.pow_add]
    ac_rfl
  rw [val_eq_sum a, val_eq_sum b, ha, hb, rowMajor, List.map_flatMap, List.flatMap_def, List.sum_flatten, List.map_map,
    ← List.sum_map_mul_right]
  simp only [List.map_map, Function.comp_def, hterm, List.sum_map_mul_left]

/-- The product of two operands of N limbs fits in 2N limbs. -/
theorem val_mul_val_lt {n : Nat} {a b : List Word} (ha : a.length = n) (hb : b.length = n) :
    val a * val b < beta ^ (2 * n) := by
  have hva := val_lt a
  have hvb := val_lt b
  rw [ha] at hva
  rw [hb] at hvb
  rw [Nat.two_mul, Nat.pow_add]
  exact Nat.mul_lt_mul'' hva hvb

section
variable {n : Nat} {a b p : List Word} {ij : Nat × Nat}

/-- While the total fits in 2N limbs, folding in a partial product leaves no carry (R143). -/
theorem foldProduct_settles (hij : ij.1 < n ∧ ij.2 < n) (hp : p.length = 2 * n)
    (hfit : val p + pairTerm a b ij < beta ^ (2 * n)) :
    (accumulate n (ij.1 + ij.2) (wmul64 (a.getD ij.1 0#64) (b.getD ij.2 0#64)).1
      (wmul64 (a.getD ij.1 0#64) (b.getD ij.2 0#64)).2 p).2 = false ∧
    val (foldProduct n a b p ij) = val p + pairTerm a b ij := by
  have hsplit : pairTerm a b ij =
      (wmul64 (a.getD ij.1 0#64) (b.getD ij.2 0#64)).1.toNat * beta ^ (ij.1 + ij.2) +
        (wmul64 (a.getD ij.1 0#64) (b.getD ij.2 0#64)).2.toNat * beta ^ (ij.1 + ij.2 + 1) := by
    rw [pairTerm, wmul64_exact, Nat.add_mul, Nat.pow_succ', ← Nat.mul_assoc, Nat.add_comm]
  rw [hsplit, ← Nat.add_assoc] at hfit
  obtain ⟨hcarry, hval⟩ := accumulate_settles n (ij.1 + ij.2) (wmul64 (a.getD ij.1 0#64) (b.getD ij.2 0#64)).1
    (wmul64 (a.getD ij.1 0#64) (b.getD ij.2 0#64)).2 p hp (by omega)
  have hc := hcarry.mpr hfit
  exact ⟨hc, by rw [hsplit, ← Nat.add_assoc, foldProduct, hval hc]⟩

end

/-! ### The host-driven schoolbook -/

/-- `t` is `s` but for bank P, which is `p`, and the responses. -/
def SameButProduct (p : List Word) (s t : State) : Prop :=
  t.n = s.n ∧ t.a = s.a ∧ t.b = s.b ∧ t.cause = s.cause ∧ t.p = p

/-- One turn of the host folds the partial product of its pair into bank P, as one turn of MULS does, since each command
gets the words that the commands before it answered. -/
theorem hostTurn_eq {s : State} {ij : Nat × Nat} (hf : s.cause = 0#8) (hij : ij.1 < s.n ∧ ij.2 < s.n)
    (hp : s.p.length = 2 * s.n) (hfit : val s.p + pairTerm s.a s.b ij < beta ^ (2 * s.n)) :
    SameButProduct (foldProduct s.n s.a s.b s.p ij) s (s.hostTurn ij) := by
  have hrda : s.drive (.rda ij.1) = s.ok [s.limb .A ij.1] := drive_of_exec (exec_rda_of_lt hf hij.1)
  have hrdb : (s.ok [s.limb .A ij.1]).drive (.rdb ij.2) = (s.ok [s.limb .A ij.1]).ok [s.limb .B ij.2] :=
    drive_of_exec (exec_rdb_of_lt (s := s.ok _) hf hij.2)
  have hwmul := drive_wmul_of_ok (s := (s.ok [s.limb .A ij.1]).ok [s.limb .B ij.2]) hf
  simp only [State.hostTurn, hrda, hrdb, hwmul, lastResult_ok, List.getD_cons_zero, List.getD_cons_succ]
  rw [drive_acc_of_settled (by exact hf) (by simp only [State.ok_n]; omega)
    (by exact (foldProduct_settles hij hp hfit).1)]
  exact ⟨rfl, rfl, rfl, rfl, rfl⟩

/-- All turns of the host, while the total fits. -/
theorem foldl_hostTurn (l : List (Nat × Nat)) {s : State} (hf : s.cause = 0#8) (hl : ∀ ij ∈ l, ij.1 < s.n ∧ ij.2 < s.n)
    (hp : s.p.length = 2 * s.n) (hfit : val s.p + (l.map (pairTerm s.a s.b)).sum < beta ^ (2 * s.n)) :
    SameButProduct (l.foldl (foldProduct s.n s.a s.b) s.p) s (l.foldl State.hostTurn s) := by
  induction l generalizing s with
  | nil => exact ⟨rfl, rfl, rfl, rfl, rfl⟩
  | cons ij l ih =>
    rw [List.map_cons, List.sum_cons] at hfit
    have hij := hl ij List.mem_cons_self
    have hval := (foldProduct_settles hij hp (by omega : val s.p + pairTerm s.a s.b ij < beta ^ (2 * s.n))).2
    obtain ⟨hn, ha, hb, hcause, hp'⟩ := hostTurn_eq hf hij hp (by omega)
    have hl' : ∀ x ∈ l, x.1 < (s.hostTurn ij).n ∧ x.2 < (s.hostTurn ij).n := fun x hx => by
      rw [hn]
      exact hl x (List.mem_cons_of_mem _ hx)
    have hrest := ih (s := s.hostTurn ij) (hcause.trans hf) hl'
      (by rw [hp', hn, foldProduct_length, hp]) (by rw [hp', hval, ha, hb, hn]; omega)
    rw [SameButProduct, hn, ha, hb, hcause, hp'] at hrest
    exact hrest

/-! ### The statements -/

/-- Settles O56: the writes of SETA and SETB put the limbs of the integer in their bank, and the reads of GETP answer
the limbs of P. -/
theorem pseudoInstructions : Obligations.PseudoInstructions := by
  intro s v ⟨_, _, ha, hb, hp⟩ hf
  refine ⟨fun hv => ⟨_, if_pos hv, by simp only [limbOf_eq], ?_⟩,
    fun hv => ⟨_, if_pos hv, by simp only [limbOf_eq], ?_⟩,
    fun hv => ⟨if_neg (not_lt.mpr hv), if_neg (not_lt.mpr hv)⟩, ⟨_, rfl, rfl, ?_⟩, rfl⟩
  · obtain ⟨hval, hcause, hframe⟩ := driveAll_set (x := .A) (fun _ _ v h hi => exec_wra_of_lt h hi v) hf ha hv
    exact ⟨hval, hframe .B nofun, hframe .P nofun, hcause⟩
  · obtain ⟨hval, hcause, hframe⟩ := driveAll_set (x := .B) (fun _ _ v h hi => exec_wrb_of_lt h hi v) hf hb hv
    exact ⟨hval, hframe .A nofun, hframe .P nofun, hcause⟩
  · rw [driveAll_reads hf hp le_rfl, List.take_of_length_le hp.le]

/-- Settles O57: after ZERO every turn of the host is a turn of MULS, and no total exceeds the product of A and B. -/
theorem hostDrivenSchoolbook : Obligations.HostDrivenSchoolbook := by
  intro s ⟨_, _, ha, hb, _⟩ hf
  have hfit : val (zeroedProduct s.n) + ((rowMajor s.n).map (pairTerm s.a s.b)).sum < beta ^ (2 * s.n) := by
    rw [val_zeroedProduct, Nat.zero_add, sum_pairTerm_rowMajor ha hb]
    exact val_mul_val_lt ha hb
  obtain ⟨_, ha', hb', hcause, hp'⟩ := foldl_hostTurn (rowMajor s.n) (s := (s.setProduct (zeroedProduct s.n)).ok []) hf
    (fun _ => mem_rowMajor.mp) (zeroedProduct_length s.n) hfit
  refine ⟨_, exec_muls_of_ok hf, ?_⟩
  rw [State.hostSchoolbook, drive_zero_of_ok hf]
  exact ⟨hp', ha', hb', hcause.trans hf⟩

end Sys2Proof.Machine

/-! PROOFS. The statements of `40_widening_multiplier.md`: `wmul64` over the integers (R100), its laws (R102) and the
command WMUL (R101). -/

namespace Sys2Proof.Machine

/-! ### `wmul64` over the integers -/

/-- A value written as hi·β + lo with word-sized `lo` has quotient `hi` and remainder `lo` by β. -/
theorem div_mod_beta_of_exact {v : Nat} {lo hi : Word} (h : v = hi.toNat * beta + lo.toNat) :
    v / beta = hi.toNat ∧ v % beta = lo.toNat :=
  (Nat.div_mod_unique (by decide)).mpr ⟨by rw [h, Nat.mul_comm beta, Nat.add_comm], word_lt lo⟩

section
variable (a b : Word)

theorem wmul64_lo_toNat : (wmul64 a b).1.toNat = a.toNat * b.toNat % beta :=
  (div_mod_beta_of_exact (wmul64_exact a b)).2.symm

theorem wmul64_hi_toNat : (wmul64 a b).2.toNat = a.toNat * b.toNat / beta :=
  (div_mod_beta_of_exact (wmul64_exact a b)).1.symm

theorem wmul64_comm : wmul64 a b = wmul64 b a := by rw [wmul64, wmul64, Nat.mul_comm]

/-- The largest product is (β − 1)², so `hi` stays below β − 1 (R102 (b)). -/
theorem wmul64_hi_le : (wmul64 a b).2.toNat ≤ beta - 2 := by
  have hmul : a.toNat * b.toNat ≤ (beta - 1) * (beta - 1) :=
    Nat.mul_le_mul (Nat.le_pred_of_lt (word_lt a)) (Nat.le_pred_of_lt (word_lt b))
  have hexact := wmul64_exact a b
  simp only [beta] at *
  omega

/-- The pair of words that stands for a product is unique (R102 (a)). -/
theorem wmul64_eq_of_exact {lo hi : Word} (h : a.toNat * b.toNat = hi.toNat * beta + lo.toNat) :
    wmul64 a b = (lo, hi) := by
  obtain ⟨hdiv, hmod⟩ := div_mod_beta_of_exact h
  exact Prod.ext (BitVec.eq_of_toNat_eq ((wmul64_lo_toNat a b).trans hmod))
    (BitVec.eq_of_toNat_eq ((wmul64_hi_toNat a b).trans hdiv))

/-- A power of two as second factor shifts the first (R102 (e)). -/
theorem wmul64_two_pow {e : Nat} (he : e ≤ 63) :
    (wmul64 a (BitVec.ofNat 64 (2 ^ e))).1.toNat = a.toNat * 2 ^ e % 2 ^ 64 ∧
      (wmul64 a (BitVec.ofNat 64 (2 ^ e))).2.toNat = a.toNat / 2 ^ (64 - e) := by
  have hpow : (BitVec.ofNat 64 (2 ^ e)).toNat = 2 ^ e := by
    rw [BitVec.toNat_ofNat, Nat.mod_eq_of_lt (Nat.pow_lt_pow_right (by decide) (by omega))]
  have hbeta : beta = 2 ^ (64 - e) * 2 ^ e := by rw [← Nat.pow_add, Nat.sub_add_cancel (by omega)]
  rw [wmul64_lo_toNat, wmul64_hi_toNat, hpow]
  exact ⟨rfl, by rw [hbeta, Nat.mul_div_mul_right _ _ (Nat.two_pow_pos e)]⟩

end

/-! ### The command -/

/-- The headers of a row's `opc` that the row does not select are illegal, and those it selects want the data beats of
the row's format (R77, R78). -/
theorem rejectsMalformed_of_row {row : Row} (hr : row ∈ opcodeTable) {legal : Word → Prop}
    (hlegal : ∀ h, opcField h = opcField row.pattern → (row.selects h = true ↔ legal h)) :
    RejectsMalformed (opcField row.pattern) legal row.format.dataBeats := by
  intro s r rest hnext hf hopc
  refine ⟨fun hnot => ?_, fun hl hlen => ?_⟩
  · have hnone : selectRow r.header = none := by
      refine Option.eq_none_iff_forall_ne_some.mpr fun other hother => hnot ?_
      obtain ⟨hmem, hsel⟩ := (selectRow_eq_some _).mp hother
      have hrow := row_of_opcField hmem hr ((opcField_of_selects hmem hsel).symm.trans hopc)
      exact (hlegal _ hopc).mp (hrow ▸ hsel)
    exact step_of_decode_error (decode_of_no_row hnone) hnext hf
  · have hsome := (selectRow_eq_some _).mpr ⟨hr, (hlegal _ hopc).mpr hl⟩
    exact step_of_decode_error (decode_of_wrong_beats hsome hlen) hnext hf

section
variable {s : State}

theorem exec_wmul_of_ok (hf : s.cause = 0#8) (a b : Word) :
    exec (.wmul a b) s = .next (s.okReply [(wmul64 a b).1, (wmul64 a b).2]) :=
  congrArg _ (s.commence_of_none hf)

theorem exec_wmul_of_faulted (hf : s.cause ≠ 0#8) (a b : Word) : exec (.wmul a b) s = .next s.refusedReply :=
  congrArg _ (s.commence_of_faulted hf)

end

/-! ### The statements -/

/-- Settles O26: the two halves are quotient and remainder by β. -/
theorem wideningMultiplyIsExact : Obligations.WideningMultiplyIsExact := fun a b =>
  ⟨wmul64_exact a b, wmul64_lo_toNat a b, wmul64_hi_toNat a b⟩

/-- Settles O27: the laws for particular factors follow from the pair being unique. -/
theorem wideningMultiplyLaws : Obligations.WideningMultiplyLaws := fun a b =>
  ⟨fun _ _ => wmul64_eq_of_exact a b, wmul64_hi_le a b, wmul64_eq_of_exact _ _ (by decide), wmul64_comm a b,
    wmul64_eq_of_exact a 0 (by simp), wmul64_eq_of_exact a 1 (by simp), fun _ => wmul64_two_pow a⟩

/-- Settles O31: the mask of WMUL's row is all ones, so the row selects its own pattern only. -/
theorem wmulCommand : Obligations.WmulCommand := by
  refine ⟨fun a b => rfl, fun a b s hf => ⟨_, _, exec_wmul_of_ok hf a b, wmul64_exact a b⟩,
    fun a b s hf => exec_wmul_of_faulted hf a b, ?_⟩
  exact rejectsMalformed_of_row (row := ⟨.wmul, .M, 0x0100000000000000, 0xFFFFFFFFFFFFFFFF⟩) (by decide)
    fun h _ => by rw [selects_full, decide_eq_true_iff]

end Sys2Proof.Machine

/-! PROOFS. The statements of `41_carry_chain_adder.md`: `adc64` over the integers (R110), its laws (R113), the carry
chain (R111) and the command ADC (R112). -/

namespace Sys2Proof.Machine

/-! ### `adc64` over the integers -/

section
variable (a b : Word) (c : Bool)

theorem adc64_sum_toNat : (adc64 a b c).1.toNat = (a.toNat + b.toNat + c.toNat) % beta := BitVec.toNat_ofNat ..

theorem adc64_carryOut_iff : (adc64 a b c).2 = true ↔ beta ≤ a.toNat + b.toNat + c.toNat := decide_eq_true_iff

theorem adc64_comm : adc64 a b c = adc64 b a c := by rw [adc64, adc64, Nat.add_comm a.toNat]

/-- The pair of sum and carry that stands for a total is unique. -/
theorem adc64_eq_of_exact {a b : Word} {c : Bool} {sum : Word} {carryOut : Bool}
    (h : a.toNat + b.toNat + c.toNat = carryOut.toNat * beta + sum.toNat) : adc64 a b c = (sum, carryOut) := by
  have hmod : (a.toNat + b.toNat + c.toNat) % beta = sum.toNat := by
    rw [h, Nat.mul_add_mod_of_lt (word_lt sum)]
  have hcarry : (adc64 a b c).2 = carryOut := by
    rw [Bool.eq_iff_iff, adc64_carryOut_iff, h]
    cases carryOut <;> simp [word_lt]
  exact Prod.ext (BitVec.eq_of_toNat_eq ((adc64_sum_toNat a b c).trans hmod)) hcarry

/-- A carry stops at a word that is not all ones (R113 (c)). -/
theorem adc64_carry_of_ne_maxWord {a : Word} (ha : a ≠ maxWord) : adc64 a 0 true = (a + 1, false) := by
  have hnext : (a + 1).toNat = a.toNat + 1 := by bv_omega
  exact adc64_eq_of_exact (by rw [hnext]; simp)

/-- A carry-out means that the sum lost β, which is more than the second addend (R113 (d)). -/
theorem adc64_carryOut_iff_wrapped : (adc64 a b c).2 = true ↔ (adc64 a b c).1.toNat < a.toNat + c.toNat := by
  have ha := word_lt a
  have hb := word_lt b
  have hc := Bool.toNat_le c
  rw [adc64_carryOut_iff, adc64_sum_toNat]
  simp only [beta] at *
  omega

end

/-! ### The carry chain -/

@[simp] theorem carryChain_nil (ys : List Word) (c : Bool) : carryChain [] ys c = ([], c) := rfl

@[simp] theorem carryChain_cons (x y : Word) (xs ys : List Word) (c : Bool) :
    carryChain (x :: xs) (y :: ys) c =
      ((adc64 x y c).1 :: (carryChain xs ys (adc64 x y c).2).1, (carryChain xs ys (adc64 x y c).2).2) := rfl

theorem carryChain_length {x y : List Word} (c : Bool) (h : x.length = y.length) :
    (carryChain x y c).1.length = x.length := by
  induction x generalizing y c with
  | nil => rfl
  | cons x xs ih =>
    cases y with
    | nil => simp at h
    | cons y ys => simp [ih (adc64 x y c).2 (Nat.succ.inj h)]

/-- R111: each step is exact, and its carry-out is worth one unit of the next limb. -/
theorem carryChain_val {x y : List Word} (c : Bool) (h : x.length = y.length) :
    val (carryChain x y c).1 + (carryChain x y c).2.toNat * beta ^ x.length = val x + val y + c.toNat := by
  induction x generalizing y c with
  | nil => simp [List.length_eq_zero_iff.mp h.symm]
  | cons x xs ih =>
    cases y with
    | nil => simp at h
    | cons y ys =>
      have hlimb := adc64_exact x y c
      have hrest := congrArg (beta * ·) (ih (adc64 x y c).2 (Nat.succ.inj h))
      simp only [Nat.mul_add, Nat.mul_comm beta (adc64 x y c).2.toNat] at hrest
      simp only [carryChain_cons, val_cons, List.length_cons, Nat.pow_succ', Nat.mul_left_comm _ beta]
      omega

/-! ### The command -/

section
variable {s : State}

theorem exec_adc_of_ok (hf : s.cause = 0#8) (a b : Word) (cin : Bool) :
    exec (.adc a b cin) s = .next (s.okReply [(adc64 a b cin).1, carryWord (adc64 a b cin).2]) :=
  congrArg _ (s.commence_of_none hf)

theorem exec_adc_of_faulted (hf : s.cause ≠ 0#8) (a b : Word) (cin : Bool) :
    exec (.adc a b cin) s = .next s.refusedReply :=
  congrArg _ (s.commence_of_faulted hf)

end

/-- The row of ADC selects its pattern with bit 0, the carry-in, clear or set (R73, R74). -/
theorem selects_adc_iff (h : Word) :
    Row.selects ⟨.adc, .C, 0x0200000000000000, 0xFFFFFFFFFFFFFFFE⟩ h = true ↔
      h = 0x0200000000000000 ∨ h = 0x0200000000000001 := by
  rw [selects_carry h _ _ _ (by decide), decide_eq_true_iff]
  bv_omega

/-! ### The statements -/

/-- Settles O28: the pair is remainder and quotient by β. -/
theorem addWithCarryIsExact : Obligations.AddWithCarryIsExact := fun a b c =>
  ⟨adc64_sum_toNat a b c, adc64_carryOut_iff a b c, adc64_exact a b c⟩

/-- Settles O29: the laws for particular words follow from the pair being unique. -/
theorem addWithCarryLaws : Obligations.AddWithCarryLaws := fun a b c =>
  ⟨adc64_comm a b c, adc64_zero a, adc64_carry_of_ne_maxWord, adc64_eq_of_exact (by decide),
    adc64_carryOut_iff_wrapped a b c⟩

/-- Settles O30, by induction on the limbs. -/
theorem carryChainIsExact : Obligations.CarryChainIsExact := fun _ _ c h =>
  ⟨carryChain_length c h, carryChain_val c h⟩

/-- Settles O32: the response is the pair of `adc64`, and only bit 0 of the header is free. -/
theorem adcCommand : Obligations.AdcCommand := by
  refine ⟨fun a b => ⟨rfl, rfl⟩, fun a b cin s hf => ⟨_, _, exec_adc_of_ok hf a b cin, ?_, ?_⟩,
    fun a b cin s hf => exec_adc_of_faulted hf a b cin, ?_⟩
  · rw [carryWord_toNat]
    exact Bool.toNat_le _
  · rw [carryWord_toNat]
    exact adc64_exact a b cin
  · exact rejectsMalformed_of_row (row := ⟨.adc, .C, 0x0200000000000000, 0xFFFFFFFFFFFFFFFE⟩) (by decide)
      fun h _ => selects_adc_iff h

end Sys2Proof.Machine

/-! PROOFS. The statements of `42_product_accumulator.md`: the ripple (R125), sequences of `accumulate` calls (R127) and
the commands ZERO (R120) and ACC (R121 to R124). -/

namespace Sys2Proof.Machine

/-! ### The ripple -/

/-- A step that adds nothing leaves the bank and no carry, also outside the bank (log 10). -/
@[simp] theorem addInto_zero_false (p : List Word) (k : Nat) : addInto p k 0#64 false = (p, false) := by
  simp only [addInto, adc64_zero, Prod.mk.injEq, and_true]
  by_cases hk : k < p.length
  · rw [List.getD_eq_getElem _ _ hk, List.set_getElem_self]
  · exact List.set_eq_of_length_le (not_lt.mp hk)

/-- The ripple makes the step at its first limb whatever the carry. -/
theorem ripple_succ (left k : Nat) (c : Bool) (p : List Word) :
    ripple (left + 1) k c p = ripple left (k + 1) (addInto p k 0#64 c).2 (addInto p k 0#64 c).1 := by
  cases c with
  | false => simp
  | true => rfl

/-- The ripple that stops early is the one over all the limbs left. -/
theorem ripple_eq_foldl (left k : Nat) (c : Bool) (p : List Word) :
    ripple left k c p = (List.range left).foldl (fun x t => addInto x.1 (k + t) 0#64 x.2) (p, c) := by
  induction left generalizing k c p with
  | zero => rfl
  | succ left ih =>
    rw [ripple_succ, ih, List.range_succ_eq_map, List.foldl_cons, List.foldl_map]
    simp only [Nat.add_zero, Nat.succ_eq_add_one, Nat.add_right_comm k 1, ← Nat.add_assoc]

/-! ### The limbs above the last carry -/

section
variable {p q : List Word} {k : Nat}

/-- A sum that stays within the limbs below `k` leaves the value of those from `k` up. -/
theorem val_add_div_pow {x : Nat} (hk : k ≤ p.length) (hfit : val (p.take k) + x < beta ^ k) :
    (val p + x) / beta ^ k = val (p.drop k) := by
  have hsplit : val p + x = val (p.take k) + x + beta ^ k * val (p.drop k) := by
    conv_lhs => rw [← List.take_append_drop k p, val_append, List.length_take_of_le hk]
    exact Nat.add_right_comm ..
  rw [hsplit, Nat.add_mul_div_left _ _ (Nat.pow_pos (by decide)), Nat.div_eq_of_lt hfit, Nat.zero_add]

/-- Limb `j` of a vector depends on its value from any limb `k` below `j` on. -/
theorem getD_eq_of_val_div_eq {j : Nat} (hj : k ≤ j) (h : val p / beta ^ k = val q / beta ^ k) :
    p.getD j 0#64 = q.getD j 0#64 := by
  apply BitVec.eq_of_toNat_eq
  rw [getD_toNat, getD_toNat, ← Nat.add_sub_cancel' hj, Nat.pow_add, ← Nat.div_div_eq_div_mul,
    ← Nat.div_div_eq_div_mul, h]

/-- A vector whose value grew by a sum that stays within the limbs below `k` has the limbs from `k` up unchanged. -/
theorem getD_eq_of_val_eq_add {x j : Nat} (hk : k ≤ p.length) (hfit : val (p.take k) + x < beta ^ k)
    (hq : val q = val p + x) (hj : k ≤ j) : q.getD j 0#64 = p.getD j 0#64 := by
  have hold := val_add_div_pow (x := 0) hk (Nat.lt_of_le_of_lt (Nat.add_le_add_left (Nat.zero_le x) _) hfit)
  refine getD_eq_of_val_div_eq hj ?_
  rw [hq, val_add_div_pow hk hfit, ← hold, Nat.add_zero]

end

/-- `accumulate` leaves the limbs from `k` up when no carry comes out of the limbs below `k` (R123). -/
theorem accumulate_getD_of_ge {n off k j : Nat} {lo hi : Word} {p : List Word} (hp : p.length = 2 * n)
    (ho : off + 2 ≤ 2 * n) (hc : (accumulate n off lo hi p).2 = false) (hk : k ≤ 2 * n)
    (hstop : val (p.take k) + lo.toNat * beta ^ off + hi.toNat * beta ^ (off + 1) < beta ^ k) (hj : k ≤ j) :
    (accumulate n off lo hi p).1.getD j 0#64 = p.getD j 0#64 := by
  have hval := (accumulate_settles n off lo hi p hp ho).2 hc
  rw [Nat.add_assoc] at hstop hval
  exact getD_eq_of_val_eq_add (hp ▸ hk) hstop hval hj

/-! ### Sequences of accumulate calls -/

/-- What a call `accumulate(off, lo, hi)` adds to bank P. -/
def callTerm (x : Nat × Word × Word) : Nat := x.2.1.toNat * beta ^ x.1 + x.2.2.toNat * beta ^ (x.1 + 1)

/-- The bank after a sequence of `accumulate` calls, their last carries dropped. -/
def accumulateAll (n : Nat) (calls : List (Nat × Word × Word)) (p : List Word) : List Word :=
  calls.foldl (fun p x => (accumulate n x.1 x.2.1 x.2.2 p).1) p

section
variable {n : Nat} {calls : List (Nat × Word × Word)} {p : List Word}

@[simp] theorem accumulateAll_length : (accumulateAll n calls p).length = p.length := by
  induction calls generalizing p with
  | nil => rfl
  | cons x calls ih => exact ih.trans (accumulate_length ..)

/-- A call with a legal offset whose total fits leaves no carry and adds its term (R123). -/
theorem accumulate_of_fits {x : Nat × Word × Word} (hp : p.length = 2 * n) (hx : x.1 + 2 ≤ 2 * n)
    (hfit : val p + callTerm x < beta ^ (2 * n)) :
    (accumulate n x.1 x.2.1 x.2.2 p).2 = false ∧ val (accumulate n x.1 x.2.1 x.2.2 p).1 = val p + callTerm x := by
  obtain ⟨hcarry, hval⟩ := accumulate_settles n x.1 x.2.1 x.2.2 p hp hx
  rw [callTerm, ← Nat.add_assoc] at hfit ⊢
  exact ⟨hcarry.mpr hfit, hval (hcarry.mpr hfit)⟩

/-- While the total fits, the calls add their terms one by one. -/
theorem val_accumulateAll (hp : p.length = 2 * n) (hoff : ∀ x ∈ calls, x.1 + 2 ≤ 2 * n)
    (hfit : val p + (calls.map callTerm).sum < beta ^ (2 * n)) :
    val (accumulateAll n calls p) = val p + (calls.map callTerm).sum := by
  induction calls generalizing p with
  | nil => rfl
  | cons x calls ih =>
    obtain ⟨hx, hrest⟩ := List.forall_mem_cons.mp hoff
    rw [List.map_cons, List.sum_cons, ← Nat.add_assoc] at hfit ⊢
    have hval := (accumulate_of_fits hp hx (Nat.lt_of_le_of_lt (Nat.le_add_right ..) hfit)).2
    rw [← hval] at hfit ⊢
    exact ih ((accumulate_length ..).trans hp) hrest hfit

/-- After clearing P the calls leave exactly their total. -/
theorem val_accumulateAll_zeroed (hoff : ∀ x ∈ calls, x.1 + 2 ≤ 2 * n)
    (hfit : (calls.map callTerm).sum < beta ^ (2 * n)) :
    val (accumulateAll n calls (zeroedProduct n)) = (calls.map callTerm).sum := by
  rw [val_accumulateAll (zeroedProduct_length n) hoff (by rwa [val_zeroedProduct, Nat.zero_add]), val_zeroedProduct,
    Nat.zero_add]

/-- No call leaves a carry, since the calls before it and itself total no more than all of them. -/
theorem accumulate_carry_of_append {done todo : List (Nat × Word × Word)} {x : Nat × Word × Word}
    (hcalls : calls = done ++ x :: todo) (hoff : ∀ x ∈ calls, x.1 + 2 ≤ 2 * n)
    (hfit : (calls.map callTerm).sum < beta ^ (2 * n)) :
    (accumulate n x.1 x.2.1 x.2.2 (accumulateAll n done (zeroedProduct n))).2 = false := by
  rw [hcalls] at hoff hfit
  obtain ⟨hdone, hrest⟩ := List.forall_mem_append.mp hoff
  rw [List.map_append, List.sum_append, List.map_cons, List.sum_cons] at hfit
  have hval := val_accumulateAll_zeroed hdone (by omega)
  exact (accumulate_of_fits (by simp) (hrest x List.mem_cons_self) (by omega)).1

/-- The order of the calls does not matter: another order has the same total, and a bank of 2N limbs is determined by
its value. -/
theorem accumulateAll_perm {calls' : List (Nat × Word × Word)} (hperm : calls'.Perm calls)
    (hoff : ∀ x ∈ calls, x.1 + 2 ≤ 2 * n) (hfit : (calls.map callTerm).sum < beta ^ (2 * n)) :
    accumulateAll n calls' (zeroedProduct n) = accumulateAll n calls (zeroedProduct n) := by
  have hsum : (calls'.map callTerm).sum = (calls.map callTerm).sum := (hperm.map callTerm).sum_eq
  refine val_injective (accumulateAll_length.trans accumulateAll_length.symm) ?_
  rw [val_accumulateAll_zeroed (fun x hx => hoff x (hperm.mem_iff.mp hx)) (hsum ▸ hfit),
    val_accumulateAll_zeroed hoff hfit, hsum]

end

/-! ### The commands -/

/-- A row whose mask is all ones accepts its pattern only (formats Z and M, R77). -/
theorem rejectsMalformed_of_full_row {op : Mnemonic} {f : Format} {pat : Word}
    (hr : ⟨op, f, pat, 0xFFFFFFFFFFFFFFFF⟩ ∈ opcodeTable) :
    RejectsMalformed (opcField pat) (fun h => h = pat) f.dataBeats :=
  rejectsMalformed_of_row hr fun h _ => by rw [selects_full, decide_eq_true_iff]

/-- A row that leaves `idx` free accepts every header of its `opc` with `rsv0` zero (formats I, W and A, R77). -/
theorem rejectsMalformed_of_index_row {row : Row} (hr : row ∈ opcodeTable) (hidx : row.format.idxBound = 65536) :
    RejectsMalformed (opcField row.pattern) (fun h => rsvField h = 0) row.format.dataBeats :=
  rejectsMalformed_of_row hr fun h hopc => by simp [selects_iff_fields h hr, hopc, hidx, idxField_lt]

section
variable {s : State}

theorem exec_zero_of_ok (hf : s.cause = 0#8) :
    exec .zero s = .next ({ s with p := List.replicate (2 * s.n) 0#64 }.okReply []) :=
  congrArg _ (s.commence_of_none hf)

theorem exec_zero_of_faulted (hf : s.cause ≠ 0#8) : exec .zero s = .next s.refusedReply :=
  congrArg _ (s.commence_of_faulted hf)

variable {off : Nat} {lo hi : Word}

/-- With a legal offset outside the fault state ACC runs `accumulate` and looks at its last carry. -/
theorem exec_acc_of_passed (hf : s.cause = 0#8) (ho : off + 2 ≤ 2 * s.n) :
    exec (.acc off lo hi) s = .next (if (accumulate s.n off lo hi s.p).2
      then s.raiseFault .accOverflow (header (.acc off lo hi))
      else (s.setProduct (accumulate s.n off lo hi s.p).1).ok []) :=
  congrArg _ (State.commence_of_passed hf (checkOffset_eq_none.mpr ho))

/-- No carry left: ACC answers OK with the bank of `accumulate`. -/
theorem exec_acc_of_settled (hf : s.cause = 0#8) (ho : off + 2 ≤ 2 * s.n)
    (hc : (accumulate s.n off lo hi s.p).2 = false) :
    exec (.acc off lo hi) s = .next ({ s with p := (accumulate s.n off lo hi s.p).1 }.okReply []) := by
  rw [exec_acc_of_passed hf ho, hc]
  rfl

/-- A carry left: ACC raises ACC_OVERFLOW, and bank P becomes 2N free values (R124, log 3). -/
theorem exec_acc_of_overflow (hf : s.cause = 0#8) (ho : off + 2 ≤ 2 * s.n)
    (hc : (accumulate s.n off lo hi s.p).2 = true) :
    exec (.acc off lo hi) s = .next
      ({ s with
          p := (List.range (2 * s.n)).map (Config.overflowLimb s.draws)
          draws := s.draws + 1 }.faultEntry 5 (header (.acc off lo hi))) := by
  rw [exec_acc_of_passed hf ho, hc]
  rfl

theorem exec_acc_of_offset (hf : s.cause = 0#8) (ho : 2 * s.n < off + 2) :
    exec (.acc off lo hi) s = .next (s.faultEntry 3 (header (.acc off lo hi))) := by
  have hcheck : checkOffset s.n off = some .cvIndex := if_neg (not_le.mpr ho)
  simp only [exec, execAcc, hcheck, s.commence_of_check hf]
  rfl

theorem exec_acc_of_faulted (hf : s.cause ≠ 0#8) : exec (.acc off lo hi) s = .next s.refusedReply :=
  congrArg _ (s.commence_of_faulted hf)

end

theorem header_acc_toNat {off : Nat} (ho : off < 65536) (lo hi : Word) :
    (header (.acc off lo hi)).toNat = 0x0400000000000000 + off := by
  rw [header, headerOf_toNat, Nat.mod_eq_of_lt (show off < 2 ^ 16 from ho)]
  rfl

/-! ### The statements -/

/-- Settles O48: a step without a carry adds nothing, so the steps after it may be made or left out. -/
theorem stoppingEarlyIsRipplingToTheEnd : Obligations.StoppingEarlyIsRipplingToTheEnd := ripple_eq_foldl

/-- Settles O49: the bank holds the total of the calls so far, and the total does not depend on their order. -/
theorem orderOfSettledCallsDoesNotMatter : Obligations.OrderOfSettledCallsDoesNotMatter := fun _ _ hoff hfit =>
  ⟨val_accumulateAll_zeroed hoff hfit, fun _ _ _ _ _ hcalls => accumulate_carry_of_append hcalls hoff hfit,
    fun _ hperm => accumulateAll_perm hperm hoff hfit⟩

/-- Settles O33: ZERO has no operand to check, and its row selects its pattern only. -/
theorem zeroCommand : Obligations.ZeroCommand :=
  ⟨rfl, fun _ hf => ⟨exec_zero_of_ok hf, val_replicate_zero _⟩, fun _ => exec_zero_of_faulted,
    rejectsMalformed_of_full_row (op := .zero) (f := .Z) (pat := 0x0300000000000000) (by decide)⟩

/-- Settles O34: a carry is left exactly when the total does not fit; the limbs above the last carry are read off the
value of the bank. -/
theorem accCommand : Obligations.AccCommand := by
  refine ⟨fun off lo hi ho => ⟨header_acc_toNat ho lo hi, rfl⟩, ?_, ?_, fun _ _ _ _ => exec_acc_of_offset,
    fun _ _ _ _ => exec_acc_of_faulted,
    rejectsMalformed_of_index_row (row := ⟨.acc, .A, 0x0400000000000000, 0xFFFFFFFFFFFF0000⟩) (by decide) rfl⟩
  · intro off lo hi s ⟨_, _, _, _, hp⟩ hf ho hfit
    obtain ⟨hcarry, hval⟩ := accumulate_settles s.n off lo hi s.p hp ho
    have hc := hcarry.mpr hfit
    refine ⟨_, exec_acc_of_settled hf ho hc, (accumulate_length ..).trans hp, hval hc,
      fun j hj => accumulate_getD_of_lt s.n off j lo hi s.p hj,
      fun k _ hk hstop j hj => accumulate_getD_of_ge hp ho hc hk hstop hj⟩
  · intro off lo hi s ⟨_, _, _, _, hp⟩ hf ho hover
    obtain ⟨hcarry, -⟩ := accumulate_settles s.n off lo hi s.p hp ho
    have hc := Bool.of_not_eq_false fun h => not_lt.mpr hover (hcarry.mp h)
    exact ⟨_, _, exec_acc_of_overflow hf ho hc, by simp⟩

end Sys2Proof.Machine

/-! PROOFS. The statements of `43_schoolbook_multiplier.md`: the loop of MULS as a sequence of `accumulate` calls (R143),
its exact result (R144), its properties (R145), the exposed operation sequence (R147) and the command MULS (R140). -/

namespace Sys2Proof.Machine

/-! ### The loop of MULS -/

/-- The `accumulate` call of the pair (i, j): offset i + j and the two words of the partial product (R140). -/
def pairCall (a b : List Word) (ij : Nat × Nat) : Nat × Word × Word :=
  (ij.1 + ij.2, wmul64 (a.getD ij.1 0#64) (b.getD ij.2 0#64))

/-- Turns of the loop of MULS are `accumulate` calls, one for each pair. -/
theorem foldl_foldProduct (n : Nat) (a b : List Word) (l : List (Nat × Nat)) (p : List Word) :
    l.foldl (foldProduct n a b) p = accumulateAll n (l.map (pairCall a b)) p := by
  rw [accumulateAll, List.foldl_map]
  rfl

theorem callTerm_pairCall (a b : List Word) (ij : Nat × Nat) : callTerm (pairCall a b ij) = pairTerm a b ij := by
  rw [callTerm, pairTerm, pairCall, wmul64_exact, Nat.add_mul, Nat.pow_succ', ← Nat.mul_assoc, Nat.add_comm]

theorem sum_callTerm_pairCall (a b : List Word) (l : List (Nat × Nat)) :
    ((l.map (pairCall a b)).map callTerm).sum = (l.map (pairTerm a b)).sum := by
  simp only [List.map_map, Function.comp_def, callTerm_pairCall]

/-- The offsets i + j of the loop are legal (R142). -/
theorem pairCall_offset_le {n : Nat} (a b : List Word) : ∀ x ∈ (rowMajor n).map (pairCall a b), x.1 + 2 ≤ 2 * n := by
  refine List.forall_mem_map.mpr fun ij hij => ?_
  obtain ⟨hi, hj⟩ := mem_rowMajor.mp hij
  simp only [pairCall]
  omega

section
variable {n : Nat} {a b : List Word} (ha : a.length = n) (hb : b.length = n)
include ha hb

/-- The calls of MULS total the product of the operands, which fits in 2N limbs (R143). -/
theorem sum_callTerm_rowMajor : (((rowMajor n).map (pairCall a b)).map callTerm).sum = val a * val b :=
  (sum_callTerm_pairCall a b _).trans (sum_pairTerm_rowMajor ha hb)

theorem sum_callTerm_rowMajor_lt : (((rowMajor n).map (pairCall a b)).map callTerm).sum < beta ^ (2 * n) :=
  sum_callTerm_rowMajor ha hb ▸ val_mul_val_lt ha hb

/-- The loop invariant of R143: bank P holds the total of the pairs processed. -/
theorem val_foldl_foldProduct_of_append {done todo : List (Nat × Nat)} (hrow : rowMajor n = done ++ todo) :
    val (done.foldl (foldProduct n a b) (zeroedProduct n)) = (done.map (pairTerm a b)).sum := by
  have hoff := pairCall_offset_le (n := n) a b
  have hfit := sum_callTerm_rowMajor_lt ha hb
  rw [hrow, List.map_append] at hoff hfit
  rw [List.map_append, List.sum_append] at hfit
  rw [foldl_foldProduct, val_accumulateAll_zeroed (List.forall_mem_append.mp hoff).1
    (Nat.lt_of_le_of_lt (Nat.le_add_right ..) hfit), sum_callTerm_pairCall]

/-- The bank of MULS is the exact product (R144). -/
theorem val_schoolbook : val (schoolbook n a b) = val a * val b :=
  (val_foldl_foldProduct_of_append ha hb (List.append_nil _).symm).trans (sum_pairTerm_rowMajor ha hb)

/-- A bank of 2N limbs that holds the product is the bank of MULS (R144, R15). -/
theorem schoolbook_eq_of_val {p : List Word} (hlen : p.length = 2 * n) (hval : val p = val a * val b) :
    schoolbook n a b = p :=
  val_injective ((schoolbook_length n a b).trans hlen.symm) ((val_schoolbook ha hb).trans hval.symm)

end

/-! ### The largest operands -/

/-- N limbs of all ones hold β^N − 1. -/
theorem val_replicate_maxWord (n : Nat) : val (List.replicate n maxWord) + 1 = beta ^ n := by
  induction n with
  | zero => rfl
  | succ n ih =>
    have hmax : maxWord.toNat + 1 = beta := rfl
    rw [List.replicate_succ, val_cons, Nat.pow_succ', ← ih, Nat.mul_add, Nat.mul_one]
    omega

/-- The boundary product (β^N − 1)² = 1 + β^N·(β^N − 2), by its limbs (R145 (f)). -/
theorem val_boundaryProduct (k : Nat) :
    val (1#64 :: List.replicate k 0#64 ++ 0xFFFFFFFFFFFFFFFE#64 :: List.replicate k maxWord) =
      val (List.replicate (k + 1) maxWord) * val (List.replicate (k + 1) maxWord) := by
  have hlow : val (1#64 :: List.replicate k 0#64) = 1 := by simp
  have hhigh : val (List.replicate (k + 1) maxWord) =
      val (0xFFFFFFFFFFFFFFFE#64 :: List.replicate k maxWord) + 1 := by
    rw [List.replicate_succ, val_cons, val_cons, Nat.add_right_comm]
    rfl
  rw [val_append, hlow, List.length_cons, List.length_replicate, ← val_replicate_maxWord, hhigh]
  generalize val (0xFFFFFFFFFFFFFFFE#64 :: List.replicate k maxWord) = u
  ring

/-! ### The product of MULF -/

section
variable (a0 a1 b0 b1 : Word)

/-- The sum of the two crossed partial products of MULF: x0, x1 and their last carry (R161). -/
def crossedSum : List Word × Bool :=
  carryChain [(wmul64 a0 b1).1, (wmul64 a0 b1).2] [(wmul64 a1 b0).1, (wmul64 a1 b0).2] false

/-- Limbs 1 to 3 of MULF and the last carry d3, as one carry chain (R161). -/
def upperDigits : List Word × Bool :=
  carryChain [(wmul64 a0 b0).2, (wmul64 a1 b1).1, (wmul64 a1 b1).2]
    ((crossedSum a0 a1 b0 b1).1 ++ [carryWord (crossedSum a0 a1 b0 b1).2]) false

theorem fixedFourProduct_eq_cons :
    fixedFourProduct a0 a1 b0 b1 = (wmul64 a0 b0).1 :: (upperDigits a0 a1 b0 b1).1 := rfl

/-- The two words of a product hold it. -/
theorem val_wmul64 (a b : Word) : val [(wmul64 a b).1, (wmul64 a b).2] = a.toNat * b.toNat := by
  rw [wmul64_exact, val_cons, val_cons, val_nil, Nat.mul_zero, Nat.add_zero, Nat.add_comm, Nat.mul_comm]

theorem val_crossedSum : val ((crossedSum a0 a1 b0 b1).1 ++ [carryWord (crossedSum a0 a1 b0 b1).2]) =
    a0.toNat * b1.toNat + a1.toNat * b0.toNat := by
  have hsum := carryChain_val (x := [(wmul64 a0 b1).1, (wmul64 a0 b1).2]) (y := [(wmul64 a1 b0).1, (wmul64 a1 b0).2])
    false rfl
  rw [val_wmul64, val_wmul64] at hsum
  rw [val_append, val_cons, carryWord_toNat, val_nil, Nat.mul_zero, Nat.add_zero, Nat.mul_comm]
  exact hsum

theorem val_upperDigits : val (upperDigits a0 a1 b0 b1).1 + (upperDigits a0 a1 b0 b1).2.toNat * beta ^ 3 =
    (wmul64 a0 b0).2.toNat + beta * (a1.toNat * b1.toNat) + (a0.toNat * b1.toNat + a1.toNat * b0.toNat) := by
  rw [← val_wmul64 a1 b1, ← val_crossedSum]
  exact carryChain_val false rfl

/-- The four limbs of MULF and its last carry make the product (R162). -/
theorem val_fixedFourProduct_add_carry :
    val (fixedFourProduct a0 a1 b0 b1) + (upperDigits a0 a1 b0 b1).2.toNat * beta ^ 4 =
      val [a0, a1] * val [b0, b1] := by
  have hlow := wmul64_exact a0 b0
  have hupper := val_upperDigits a0 a1 b0 b1
  simp only [fixedFourProduct_eq_cons, val_cons, val_nil]
  generalize beta = β at *
  zify at *
  linear_combination β * hupper - hlow

/-- The product of two operands of two limbs is below β⁴, so no carry is left (R162). -/
theorem upperDigits_carry : (upperDigits a0 a1 b0 b1).2 = false := by
  have hlt : val [a0, a1] * val [b0, b1] < beta ^ 4 := val_mul_val_lt (n := 2) rfl rfl
  rw [← val_fixedFourProduct_add_carry] at hlt
  cases hc : (upperDigits a0 a1 b0 b1).2 with
  | false => rfl
  | true => simp [hc] at hlt

/-- The bank of MULF is the exact product (R162). -/
theorem val_fixedFourProduct : val (fixedFourProduct a0 a1 b0 b1) = val [a0, a1] * val [b0, b1] := by
  rw [← val_fixedFourProduct_add_carry, upperDigits_carry, Bool.toNat_false, Nat.zero_mul, Nat.add_zero]

end

/-! ### The exposed operation sequence -/

/-- N + (N − 1) + ... + 1, doubled. -/
theorem two_mul_sum_range_sub (n : Nat) : 2 * ((List.range n).map fun i => n - i).sum = n * (n + 1) := by
  induction n with
  | zero => rfl
  | succ n ih =>
    simp only [List.range_succ_eq_map, List.map_cons, List.map_map, List.sum_cons, Function.comp_def,
      Nat.succ_eq_add_one, Nat.add_sub_add_right, Nat.sub_zero, Nat.mul_add, ih]
    ring

theorem sum_map_rowMajor_add (n : Nat) (h : Nat → Nat) :
    ((rowMajor n).map fun ij => h ij.1 + h ij.2).sum = n * (2 * ((List.range n).map h).sum) := by
  rw [rowMajor, List.map_flatMap, List.flatMap_def, List.sum_flatten, List.map_map]
  simp only [List.map_map, Function.comp_def, List.sum_map_add, List.map_const', List.sum_replicate,
    List.length_range, smul_eq_mul, List.sum_map_mul_left]
  ring

theorem countP_isWmul_pairOps (n : Nat) (ij : Nat × Nat) : (pairOps n ij).countP SeqOp.isWmul = 1 := by
  simp [pairOps, SeqOp.isWmul, List.countP_cons, List.countP_map, Function.comp_def]

/-- The chain of the pair (i, j) runs from limb i + j to the end of the bank. -/
theorem countP_isAdc_pairOps {n : Nat} {ij : Nat × Nat} (hij : ij ∈ rowMajor n) :
    (pairOps n ij).countP SeqOp.isAdc = (n - ij.1) + (n - ij.2) := by
  obtain ⟨hi, hj⟩ := mem_rowMajor.mp hij
  have hcount : (pairOps n ij).countP SeqOp.isAdc = 2 * n - (ij.1 + ij.2 + 2) + 2 := by
    simp [pairOps, SeqOp.isAdc, List.countP_cons, List.countP_map, Function.comp_def]
  omega

theorem length_rowMajor (n : Nat) : (rowMajor n).length = n ^ 2 := by
  simp [rowMajor, Nat.pow_two]

theorem countP_isWmul_mulsSequence (n : Nat) : (mulsSequence n).countP SeqOp.isWmul = n ^ 2 := by
  simp [mulsSequence, SeqOp.isWmul, List.countP_flatMap, Function.comp_def, countP_isWmul_pairOps, length_rowMajor]

theorem countP_isAdc_mulsSequence (n : Nat) : (mulsSequence n).countP SeqOp.isAdc = n ^ 3 + n ^ 2 := by
  have hcount : ((rowMajor n).map (List.countP SeqOp.isAdc ∘ pairOps n)) =
      (rowMajor n).map fun ij => (n - ij.1) + (n - ij.2) :=
    List.map_congr_left fun _ => countP_isAdc_pairOps
  rw [mulsSequence, List.countP_cons_of_neg (by decide), List.countP_flatMap, hcount,
    sum_map_rowMajor_add n (n - ·), two_mul_sum_range_sub]
  ring

section
variable (n : Nat) (a b : List Word)

/-- The last entries of a pair are the ripple over all the limbs left. -/
theorem foldl_runSeqOp_ripple (left k : Nat) (t : SeqState) :
    (((List.range left).map fun i => SeqOp.adc (k + i) .zero .running).foldl (runSeqOp n a b) t).p =
      (ripple left k t.c t.p).1 := by
  rw [ripple_eq_foldl, List.foldl_map]
  exact congrArg Prod.fst (List.foldl_hom (fun t : SeqState => (t.p, t.c)) fun _ _ => rfl).symm

/-- The entries of a pair make one turn of the loop (R147). -/
theorem foldl_runSeqOp_pairOps (t : SeqState) (ij : Nat × Nat) :
    ((pairOps n ij).foldl (runSeqOp n a b) t).p = foldProduct n a b t.p ij :=
  foldl_runSeqOp_ripple n a b _ _ _

/-- The whole sequence makes the turns of MULS, from any bank, since its first entry clears it. -/
theorem foldl_runSeqOp_mulsSequence (t : SeqState) :
    ((mulsSequence n).foldl (runSeqOp n a b) t).p = schoolbook n a b := by
  rw [mulsSequence, List.foldl_cons, List.foldl_flatMap]
  exact (List.foldl_hom SeqState.p fun t ij => (foldl_runSeqOp_pairOps n a b t ij).symm).symm

end

/-! ### The commands -/

section
variable {s : State}

theorem exec_muls_of_faulted (hf : s.cause ≠ 0#8) : exec .muls s = .next s.refusedReply :=
  congrArg _ (s.commence_of_faulted hf)

theorem exec_mulf_of_two (hf : s.cause = 0#8) (hn : s.n = 2) : exec .mulf s = .next
    ((s.setProduct (fixedFourProduct (s.limb .A 0) (s.limb .A 1) (s.limb .B 0) (s.limb .B 1))).ok []) :=
  congrArg _ (State.commence_of_passed hf (checkWidth_eq_none.mpr hn))

end

/-! ### The statements -/

/-- Settles O35: MULS has no operand to check, its bank is the exact product, and its row selects its pattern only. -/
theorem mulsCommand : Obligations.MulsCommand :=
  ⟨rfl, fun _ ⟨_, _, ha, hb, _⟩ hf => ⟨_, exec_muls_of_ok hf, schoolbook_length .., val_schoolbook ha hb⟩,
    fun _ => exec_muls_of_faulted,
    rejectsMalformed_of_full_row (op := .muls) (f := .Z) (pat := 0x0500000000000000) (by decide)⟩

/-- Settles O50: the pairs processed and the next one total no more than the product of the operands. -/
theorem noAccumulateOfMulsOverflows : Obligations.NoAccumulateOfMulsOverflows := by
  intro n a b ha hb done i j todo hrow
  refine ⟨val_foldl_foldProduct_of_append ha hb hrow, ?_⟩
  rw [foldl_foldProduct]
  exact accumulate_carry_of_append (x := pairCall a b (i, j)) (todo := todo.map (pairCall a b))
    (by rw [hrow, List.map_append, List.map_cons]) (pairCall_offset_le a b) (sum_callTerm_rowMajor_lt ha hb)

/-- Settles O51: each limb is a digit of the value of the bank. -/
theorem mulsIsExact : Obligations.MulsIsExact := by
  intro s t ⟨_, _, ha, hb, _⟩ hf ht
  obtain rfl : (s.setProduct (schoolbook s.n s.a s.b)).ok [] = t := by
    rwa [exec_muls_of_ok hf, Host.Outcome.next.injEq] at ht
  have hval := val_schoolbook ha hb
  exact ⟨hval, schoolbook_length .., fun k _ => hval ▸ getD_toNat (schoolbook s.n s.a s.b) k, rfl⟩

/-- Settles O52: each property gives a bank of 2N limbs that holds the product, and there is only one such bank. -/
theorem mulsProperties : Obligations.MulsProperties := by
  refine ⟨fun s => exec_muls_of_ok, fun n a b ha hb hn => ?_⟩
  obtain ⟨k, rfl⟩ := Nat.exists_eq_add_of_le' hn
  rw [Nat.add_sub_cancel]
  refine ⟨?commutes, ?one, ?zero, ?mulf, ?boundary⟩
  case commutes =>
    exact schoolbook_eq_of_val ha hb (schoolbook_length ..) (by rw [val_schoolbook hb ha, Nat.mul_comm])
  case one =>
    exact schoolbook_eq_of_val ha (by simp) (by simp [ha, Nat.two_mul]) (by simp [val_append])
  case zero => exact schoolbook_eq_of_val ha List.length_replicate List.length_replicate (by simp)
  case mulf =>
    rintro a0 a1 b0 b1 hk rfl rfl
    exact (schoolbook_eq_of_val ha hb (by rw [hk]; rfl) (val_fixedFourProduct a0 a1 b0 b1)).symm
  case boundary =>
    exact schoolbook_eq_of_val List.length_replicate List.length_replicate
      (by rw [List.length_append]; simp [Nat.two_mul]) (val_boundaryProduct k)

/-- Settles O58: a pair has one multiply and a chain of 2N − (i + j) additions, and its entries make its turn of the
loop. -/
theorem operationSequenceOfMuls : Obligations.OperationSequenceOfMuls :=
  ⟨fun n => ⟨countP_isWmul_mulsSequence n, countP_isAdc_mulsSequence n⟩, foldl_runSeqOp_mulsSequence⟩

/-- Settles O53: neither multiplication reads bank P, and both replace it. -/
theorem productIgnoresOldContent : Obligations.ProductIgnoresOldContent := by
  refine fun s p => ⟨fun t hf ht => ?_, fun t hf hn ht => ?_⟩
  · rw [exec_muls_of_ok hf] at ht
    exact (exec_muls_of_ok (s := { s with p := p }) hf).trans ht
  · rw [exec_mulf_of_two hf hn] at ht
    exact (exec_mulf_of_two (s := { s with p := p }) hf hn).trans ht

end Sys2Proof.Machine

/-! PROOFS. The statements of `44_fixed_four_product_unit.md`: the command MULF (R160), its last carry (R162), its
properties and its agreement with MULS (R163), and the exposed operation sequence (R165). -/

namespace Sys2Proof.Machine

/-! ### The bank of MULF -/

/-- A bank of four limbs that holds the product is the bank of MULF (R162, R15). -/
theorem fixedFourProduct_eq_of_val {a0 a1 b0 b1 : Word} {p : List Word} (hlen : p.length = 4)
    (hval : val p = val [a0, a1] * val [b0, b1]) : fixedFourProduct a0 a1 b0 b1 = p :=
  val_injective hlen.symm ((val_fixedFourProduct a0 a1 b0 b1).trans hval.symm)

/-- The two limbs that MULF reads from a bank are the whole bank when N = 2. -/
theorem pair_getD_of_length {x : List Word} (hx : x.length = 2) : [x.getD 0 0#64, x.getD 1 0#64] = x := by
  obtain ⟨x0, x1, rfl⟩ := List.length_eq_two.mp hx
  rfl

theorem val_fixedFourProduct_getD {a b : List Word} (ha : a.length = 2) (hb : b.length = 2) :
    val (fixedFourProduct (a.getD 0 0#64) (a.getD 1 0#64) (b.getD 0 0#64) (b.getD 1 0#64)) = val a * val b := by
  rw [val_fixedFourProduct, pair_getD_of_length ha, pair_getD_of_length hb]

theorem schoolbook_two {a b : List Word} (ha : a.length = 2) (hb : b.length = 2) : schoolbook 2 a b =
    fixedFourProduct (a.getD 0 0#64) (a.getD 1 0#64) (b.getD 0 0#64) (b.getD 1 0#64) :=
  schoolbook_eq_of_val ha hb rfl (val_fixedFourProduct_getD ha hb)

/-! ### The exposed operation sequence -/

/-- A carry kept as a word is zero exactly when the carry is. -/
@[simp] theorem carryWord_bne_zero (c : Bool) : (carryWord c != 0#64) = c := by cases c <;> rfl

/-- A transient has the value of its latest write. -/
@[simp] theorem FixedState.get_cons (p : List Word) (x y : Transient) (v : Word) (vals : List (Transient × Word)) :
    FixedState.get ⟨p, (y, v) :: vals⟩ x = if y = x then v else FixedState.get ⟨p, vals⟩ x := by
  by_cases h : y = x <;> simp [FixedState.get, h]

@[simp] theorem FixedState.carryIn_none (t : FixedState) : t.carryIn none = false := rfl

@[simp] theorem FixedState.carryIn_some (t : FixedState) (x : Transient) : t.carryIn (some x) = (t.get x != 0#64) := rfl

/-- The ten entries write every limb of a bank of four limbs, so none of its old content is left. -/
theorem foldl_runFixedOp_tail (a b : List Word) {t : FixedState} (ht : t.p.length = 4) :
    (mulfSequence.tail.foldl (runFixedOp a b) t).p =
      fixedFourProduct (a.getD 0 0#64) (a.getD 1 0#64) (b.getD 0 0#64) (b.getD 1 0#64) := by
  match t, ht with
  | ⟨[_, _, _, _], _⟩, _ => simp [mulfSequence, runFixedOp, fixedFourProduct]

/-! ### The command -/

section
variable {s : State}

theorem exec_mulf_of_width (hf : s.cause = 0#8) (hn : s.n ≠ 2) :
    exec .mulf s = .next (s.faultEntry 4 0x0600000000000000) := by
  have hcheck : checkWidth s.n = some .cvWidth := if_neg hn
  simp only [exec, execMulf, hcheck, s.commence_of_check hf]
  rfl

theorem exec_mulf_of_faulted (hf : s.cause ≠ 0#8) : exec .mulf s = .next s.refusedReply :=
  congrArg _ (s.commence_of_faulted hf)

/-- Outside the fault state the two banks of four limbs hold one product; in it, both commands are refused (R163). -/
theorem exec_mulf_eq_exec_muls (hs : s.wf) (hn : s.n = 2) : exec .mulf s = exec .muls s := by
  obtain ⟨-, -, ha, hb, -⟩ := hs
  by_cases hf : s.cause = 0#8
  · rw [exec_mulf_of_two hf hn, exec_muls_of_ok hf, hn, schoolbook_two (ha.trans hn) (hb.trans hn)]
    rfl
  · rw [exec_mulf_of_faulted hf, exec_muls_of_faulted hf]

end

/-! ### The statements -/

/-- Settles O36: MULF passes its check exactly in a block with N = 2, and its row selects its pattern only. -/
theorem mulfCommand : Obligations.MulfCommand :=
  ⟨rfl, fun _ ⟨_, _, ha, hb, _⟩ hf hn =>
      ⟨_, exec_mulf_of_two hf hn, rfl, val_fixedFourProduct_getD (ha.trans hn) (hb.trans hn)⟩,
    fun _ => exec_mulf_of_width, fun _ => exec_mulf_of_faulted,
    rejectsMalformed_of_full_row (op := .mulf) (f := .Z) (pat := 0x0600000000000000) (by decide)⟩

/-- Settles O54: each property gives a bank of four limbs that holds the product, and there is only one such bank. -/
theorem mulfEqualsMuls : Obligations.MulfEqualsMuls := by
  refine ⟨fun s => exec_mulf_eq_exec_muls, fun a0 a1 b0 b1 => ?commutes, fun a0 a1 => ⟨?one, ?zero⟩, ?boundary⟩
  case commutes => exact fixedFourProduct_eq_of_val rfl (by rw [val_fixedFourProduct, Nat.mul_comm])
  case one => exact fixedFourProduct_eq_of_val rfl (by simp)
  case zero => exact fixedFourProduct_eq_of_val rfl (by simp)
  case boundary => exact fixedFourProduct_eq_of_val rfl (val_boundaryProduct 1)

/-- Settles O55: the carry is that of the upper limbs, which hold the rest of a product below β⁴. -/
theorem mulfLastCarryIsZero : Obligations.MulfLastCarryIsZero := fun a0 a1 b0 b1 =>
  ⟨upperDigits_carry a0 a1 b0 b1, val_fixedFourProduct a0 a1 b0 b1⟩

/-- Settles O59: the zeroed bank is one of the banks of four limbs. -/
theorem operationSequenceOfMulf : Obligations.OperationSequenceOfMulf :=
  ⟨rfl, rfl, fun a b _ => foldl_runFixedOp_tail a b,
    fun a b t => foldl_runFixedOp_tail a b (t := { t with p := zeroedProduct 2 }) rfl⟩

end Sys2Proof.Machine

/-! PROOFS. The statements of `45_host_access.md`: the writes WRA, WRB, WRP (R180 to R182), the reads RDA, RDB, RDP
(R183 to R185), the status registers (R186), and what the writing commands leave unchanged. -/

namespace Sys2Proof.Machine

/-! ### The packets -/

/-- An index that fits is the low part of the header, as it is (R71, R187). -/
theorem headerOf_toNat_of_lt (opc : BitVec 8) {idx : Nat} (hi : idx < 65536) :
    (headerOf opc idx).toNat = opc.toNat * 2 ^ 56 + idx := by
  rw [headerOf_toNat, Nat.mod_eq_of_lt (show idx < 2 ^ 16 from hi)]

/-! ### An index outside its space -/

theorem checkOperandLimb_of_ge {n i : Nat} (hi : n ≤ i) : checkOperandLimb n i = some .cvIndex := if_neg (not_lt.mpr hi)

theorem checkProductLimb_of_ge {n k : Nat} (hk : 2 * n ≤ k) : checkProductLimb n k = some .cvIndex :=
  if_neg (not_lt.mpr hk)

theorem checkRegister_of_gt {r : Nat} (hr : 2 < r) : checkRegister r = some .cvIndex := if_neg (not_le.mpr hr)

section
variable {s t : State} {hdr : Word} {check : Option Cause} {run : State → State}

/-- Outside the fault state an index outside its space is fault entry, and the command's own rule is not run. -/
theorem State.commence_of_cvIndex (hf : s.cause = 0#8) (hc : check = some .cvIndex) :
    s.commence hdr check run = s.faultEntry 3 hdr := by
  rw [hc, s.commence_of_check hf, s.raiseFault_of_ne .cvIndex hdr nofun]
  rfl

/-! ### The status registers -/

/-- RDS with a register number above 2 is rejected (R186). -/
theorem exec_rds_of_gt {r : Nat} (hr : 2 < r) (s : State) :
    exec (.rds r) s = .next (s.reject .cvIndex (header (.rds r))) := by
  simp only [exec, execRds, checkRegister_of_gt hr]

theorem exec_rds_of_index {r : Nat} (hr : 2 < r) (hf : s.cause = 0#8) :
    exec (.rds r) s = .next (s.faultEntry 3 (header (.rds r))) := by
  obtain ⟨hne, -⟩ | ⟨-, he⟩ := s.reject_cases .cvIndex (header (.rds r))
  · exact absurd hf hne
  · rw [exec_rds_of_gt hr, he, s.raiseFault_of_ne .cvIndex _ nofun]
    rfl

theorem exec_rds_of_faulted {r : Nat} (hr : 2 < r) (hf : s.cause ≠ 0#8) : exec (.rds r) s = .next s.refusedReply := by
  obtain ⟨-, he⟩ | ⟨h0, -⟩ := s.reject_cases .cvIndex (header (.rds r))
  · rw [exec_rds_of_gt hr, he]
    rfl
  · exact absurd h0 hf

/-! ### The limbs -/

/-- Within its bank a limb read is the one the list holds. -/
theorem State.bank_getElem? {x : Bank} {i : Nat} (hi : i < (s.bank x).length) :
    (s.bank x)[i]? = some (s.limb x i) := by
  rw [State.limb, List.getD_eq_getElem _ _ hi, List.getElem?_eq_getElem hi]

/-- A command that leaves CAUSE 0 was neither refused nor found at fault: it ran its own rule. -/
theorem State.commence_completed (ht : s.commence hdr check run = t) (h0 : t.cause = 0#8) :
    check = none ∧ t = run s := by
  subst ht
  obtain ⟨hf, he⟩ | ⟨c, -, -, he⟩ | ⟨-, hc, he⟩ := s.commence_cases hdr check run
  · exact absurd (he ▸ h0 : s.refuse.cause = 0#8) hf
  · exact absurd (he ▸ h0 : (s.raiseFault c hdr).cause = 0#8) (causeCode_ne_zero c)
  · exact ⟨hc, he⟩

/-- The frame of a command that writes one limb: the limb written holds the word, and every other limb is unchanged. -/
theorem limb_frame_of_write {x : Bank} {k : Nat} {v : Word}
    (ht : (s.commence hdr check fun s => (s.setLimb x k v).ok []) = t) (h0 : t.cause = 0#8)
    (hlen : check = none → s.wf → k < (s.bank x).length) :
    (∀ (y : Bank) (j : Nat), y ≠ x ∨ j ≠ k → t.limb y j = s.limb y j) ∧ (s.wf → t.limb x k = v) := by
  obtain ⟨hc, rfl⟩ := State.commence_completed ht h0
  exact ⟨fun y j hne => s.limb_setLimb_of_ne x y k j v (hne.imp Ne.symm Ne.symm),
    fun hwf => State.limb_setLimb_ok_self x (hlen hc hwf) v⟩

/-- A command leaves the limbs of every bank but its destination. -/
theorem limb_eq_of_destination {i : Instr} {x y : Bank} (hi : destination i = some y) (hx : x ≠ y)
    (ht : exec i s = .next t) (j : Nat) : t.limb x j = s.limb x j := by
  have hbank : t.bank x = s.bank x := by
    by_contra hne
    exact hx (Option.some.inj ((destination_of_bank_ne ht hne).symm.trans hi))
  rw [State.limb, State.limb, hbank]

/-! ### What a completed command leaves -/

/-- Only fault entry draws free values. -/
theorem Served.draws_eq (h : Served hdr s t) (h0 : t.cause = 0#8) : t.draws = s.draws := by
  cases h with
  | answered results => rfl
  | refused _ => rfl
  | raised _ c => exact absurd h0 (causeCode_ne_zero c)
  | wroteLimb _ x i v => exact s.setLimb_draws x i v
  | wroteProduct _ p _ => rfl

/-- A command after which CAUSE is 0 leaves N, FHDR, the draw counter and the port. -/
theorem exec_frame_of_completed {i : Instr} (ht : exec i s = .next t) (h0 : t.cause = 0#8) :
    t.n = s.n ∧ t.fhdr = s.fhdr ∧ t.draws = s.draws ∧ t.inbox = s.inbox := by
  obtain ⟨u, hu, hs⟩ := exec_served i s
  obtain rfl : u = t := by rwa [hu, Host.Outcome.next.injEq] at ht
  obtain ⟨-, hfhdr⟩ | ⟨-, hne, -⟩ := hs.faultRegisters
  · exact ⟨hs.n_eq, hfhdr, hs.draws_eq h0, hs.inbox_eq⟩
  · exact absurd h0 hne

end

/-! ### The statements -/

/-- Settles O37: only the index is checked, against N, and the row leaves `idx` free. -/
theorem wraCommand : Obligations.WraCommand :=
  ⟨fun _ _ hi => ⟨headerOf_toNat_of_lt 0x10 hi, rfl⟩, fun _ v _ hf hi => exec_wra_of_lt hf hi v,
    fun _ _ _ hf hi => congrArg _ (State.commence_of_cvIndex hf (checkOperandLimb_of_ge hi)),
    fun _ _ s hf => congrArg _ (s.commence_of_faulted hf),
    rejectsMalformed_of_index_row (row := ⟨.wra, .W, 0x1000000000000000, 0xFFFFFFFFFFFF0000⟩) (by decide) rfl⟩

/-- Settles O38, as O37 with bank B. -/
theorem wrbCommand : Obligations.WrbCommand :=
  ⟨fun _ _ hi => ⟨headerOf_toNat_of_lt 0x11 hi, rfl⟩, fun _ v _ hf hi => exec_wrb_of_lt hf hi v,
    fun _ _ _ hf hi => congrArg _ (State.commence_of_cvIndex hf (checkOperandLimb_of_ge hi)),
    fun _ _ s hf => congrArg _ (s.commence_of_faulted hf),
    rejectsMalformed_of_index_row (row := ⟨.wrb, .W, 0x1100000000000000, 0xFFFFFFFFFFFF0000⟩) (by decide) rfl⟩

/-- Settles O39, as O37 with bank P and the bound 2N. -/
theorem wrpCommand : Obligations.WrpCommand :=
  ⟨fun _ _ hk => ⟨headerOf_toNat_of_lt 0x12 hk, rfl⟩, fun _ v _ hf hk => exec_wrp_of_lt hf hk v,
    fun _ _ _ hf hk => congrArg _ (State.commence_of_cvIndex hf (checkProductLimb_of_ge hk)),
    fun _ _ s hf => congrArg _ (s.commence_of_faulted hf),
    rejectsMalformed_of_index_row (row := ⟨.wrp, .W, 0x1200000000000000, 0xFFFFFFFFFFFF0000⟩) (by decide) rfl⟩

/-- Settles O40: bank A of a well-formed state has N limbs, so an index that passes the check is one of its list. -/
theorem rdaCommand : Obligations.RdaCommand :=
  ⟨fun _ hi => ⟨headerOf_toNat_of_lt 0x14 hi, rfl⟩,
    fun _ _ ⟨_, _, ha, _, _⟩ hf hi => ⟨_, State.bank_getElem? (x := .A) (hi.trans_eq ha.symm), exec_rda_of_lt hf hi⟩,
    fun _ _ hf hi => congrArg _ (State.commence_of_cvIndex hf (checkOperandLimb_of_ge hi)),
    fun _ s hf => congrArg _ (s.commence_of_faulted hf),
    rejectsMalformed_of_index_row (row := ⟨.rda, .I, 0x1400000000000000, 0xFFFFFFFFFFFF0000⟩) (by decide) rfl⟩

/-- Settles O41, as O40 with bank B. -/
theorem rdbCommand : Obligations.RdbCommand :=
  ⟨fun _ hi => ⟨headerOf_toNat_of_lt 0x15 hi, rfl⟩,
    fun _ _ ⟨_, _, _, hb, _⟩ hf hi => ⟨_, State.bank_getElem? (x := .B) (hi.trans_eq hb.symm), exec_rdb_of_lt hf hi⟩,
    fun _ _ hf hi => congrArg _ (State.commence_of_cvIndex hf (checkOperandLimb_of_ge hi)),
    fun _ s hf => congrArg _ (s.commence_of_faulted hf),
    rejectsMalformed_of_index_row (row := ⟨.rdb, .I, 0x1500000000000000, 0xFFFFFFFFFFFF0000⟩) (by decide) rfl⟩

/-- Settles O42, as O40 with bank P of 2N limbs. -/
theorem rdpCommand : Obligations.RdpCommand :=
  ⟨fun _ hk => ⟨headerOf_toNat_of_lt 0x16 hk, rfl⟩,
    fun _ _ ⟨_, _, _, _, hp⟩ hf hk => ⟨_, State.bank_getElem? (x := .P) (hk.trans_eq hp.symm), exec_rdp_of_lt hf hk⟩,
    fun _ _ hf hk => congrArg _ (State.commence_of_cvIndex hf (checkProductLimb_of_ge hk)),
    fun _ s hf => congrArg _ (s.commence_of_faulted hf),
    rejectsMalformed_of_index_row (row := ⟨.rdp, .I, 0x1600000000000000, 0xFFFFFFFFFFFF0000⟩) (by decide) rfl⟩

/-- Settles O43: the register number is judged before the fault state, so numbers 0 to 2 are answered in it too. -/
theorem rdsCommand : Obligations.RdsCommand :=
  ⟨fun _ hr => ⟨headerOf_toNat_of_lt 0x18 hr, rfl⟩,
    fun s => ⟨exec_rds_of_le (by decide) s, exec_rds_of_le (by decide) s, exec_rds_of_le (by decide) s⟩,
    fun _ _ hr hf => exec_rds_of_index hr hf, fun _ _ hr hf => exec_rds_of_faulted hr hf,
    rejectsMalformed_of_index_row (row := ⟨.rds, .I, 0x1800000000000000, 0xFFFFFFFFFFFF0000⟩) (by decide) rfl⟩

/-- Settles O46: CAUSE 0 afterwards means that the command ran its own rule, which sets one limb or replaces bank P. -/
theorem writingCommandsFrame : Obligations.WritingCommandsFrame := by
  intro s t h0
  refine ⟨fun k v ht => ?wra, fun k v ht => ?wrb, fun k v ht => ?wrp, fun i hi ht x j hx => ?product,
    fun _ _ ht => exec_frame_of_completed ht h0⟩
  case wra =>
    exact limb_frame_of_write (Host.Outcome.next.inj ht) h0 fun hc ⟨_, _, ha, _, _⟩ =>
      (checkOperandLimb_eq_none.mp hc).trans_eq ha.symm
  case wrb =>
    exact limb_frame_of_write (Host.Outcome.next.inj ht) h0 fun hc ⟨_, _, _, hb, _⟩ =>
      (checkOperandLimb_eq_none.mp hc).trans_eq hb.symm
  case wrp =>
    exact limb_frame_of_write (Host.Outcome.next.inj ht) h0 fun hc ⟨_, _, _, _, hp⟩ =>
      (checkProductLimb_eq_none.mp hc).trans_eq hp.symm
  case product =>
    have hdest : destination i = some .P := by obtain rfl | rfl | rfl := hi <;> rfl
    exact limb_eq_of_destination hdest hx ht j

end Sys2Proof.Machine

/-! PROOFS. The statements of `60_exceptions.md`: the order of the checks (R204), fault entry (R205), the sticky fault
state (R206), which command can raise which fault (R203), and the idle block (R217). -/

namespace Sys2Proof.Machine

/-! ### The request that carries a command -/

section
variable {s : State} {r : Request} {rest : List Input}

theorem serveRequest_of_ok {i : Instr} (hd : decode r = .ok i) (s : State) : serveRequest r s = exec i s := by
  simp only [serveRequest, hd]

/-- A request that carries a command is that command, in the fault state too. -/
theorem step_of_decode_ok {i : Instr} (hr : s.nextRequest r rest) (hd : decode r = .ok i) :
    step s = exec i { s with inbox := rest } :=
  (step_of_nextRequest hr).trans (serveRequest_of_ok hd _)

/-! ### The fault state -/

theorem State.reject_of_faulted (hf : s.cause ≠ 0#8) (c : Cause) (hdr : Word) : s.reject c hdr = s.refuse :=
  if_pos (s.faulted_iff.mpr hf)

/-- In the fault state every command but a well-formed RDS is refused (R204 step 1). -/
theorem exec_of_faulted {i : Instr} (hf : s.cause ≠ 0#8) (hi : ∀ k, i = .rds k → 2 < k) :
    exec i s = .next s.refusedReply := by
  cases i with
  | rds k => exact exec_rds_of_faulted (hi k rfl) hf
  | wmul | adc | zero | acc | muls | mulf | wra | wrb | wrp | rda | rdb | rdp =>
    exact congrArg _ (s.commence_of_faulted hf)

theorem step_of_readable_register {k : Nat} (hr : s.nextRequest r rest) (hd : decode r = .ok (.rds k)) (hk : k ≤ 2) :
    step s = .next (State.okReply { s with inbox := rest } [s.register k]) :=
  (step_of_decode_ok hr hd).trans (exec_rds_of_le hk _)

/-- Whether or not it carries a command, a request in the fault state is refused unless it reads a register (R206). -/
theorem serveRequest_of_faulted (hf : s.cause ≠ 0#8) (hd : ∀ k, decode r = .ok (.rds k) → 2 < k) :
    serveRequest r s = .next s.refusedReply := by
  cases hdec : decode r with
  | ok i =>
    rw [serveRequest_of_ok hdec]
    exact exec_of_faulted hf fun k hk => hd k (hk ▸ hdec)
  | error e =>
    rw [serveRequest_of_error hdec]
    exact congrArg _ (State.reject_of_faulted hf _ _)

theorem step_of_faulted (hr : s.nextRequest r rest) (hf : s.cause ≠ 0#8) (hd : ∀ k, decode r = .ok (.rds k) → 2 < k) :
    step s = .next (State.refusedReply { s with inbox := rest }) :=
  (step_of_nextRequest hr).trans (serveRequest_of_faulted hf hd)

end

/-! ### Fault entry -/

/-- CAUSE is written by fault entry only, so a request that takes the block from CAUSE 0 to another value is one. -/
theorem Served.eq_raiseFault {s t : State} {hdr : Word} (h : Served hdr s t) (hf : s.cause = 0#8) (ht : t.cause ≠ 0#8) :
    ∃ c, t = s.raiseFault c hdr := by
  cases h with
  | answered results => exact absurd hf ht
  | refused hne => exact absurd hf hne
  | raised _ c => exact ⟨c, rfl⟩
  | wroteLimb _ x i v => exact absurd ((s.setLimb_cause x i v).trans hf) ht
  | wroteProduct _ p _ => exact absurd hf ht

/-- Fault entry leaves bank P for the causes 0x01 to 0x04 (R205). -/
theorem State.raiseFault_p {s : State} {c : Cause} (hc : causeCode c ≠ 5#8) (hdr : Word) :
    (s.raiseFault c hdr).p = s.p :=
  State.bank_raiseFault (x := .P) (.inl fun h => hc (congrArg causeCode h)) hdr

/-! ### Which command can raise which fault -/

/-- The faults of a decoded command, the table of R203: without ILLEGAL and CV_LENGTH, which the decoder finds. -/
def faultsOf : Instr → List Cause
  | .wmul _ _ | .adc _ _ _ | .zero | .muls => []
  | .mulf => [.cvWidth]
  | .acc _ _ _ => [.cvIndex, .accOverflow]
  | .wra _ _ | .wrb _ _ | .wrp _ _ | .rda _ | .rdb _ | .rdp _ | .rds _ => [.cvIndex]

/-- The block is outside the fault state, or in it by one of these causes. -/
def FaultedWithin (causes : List Cause) (t : State) : Prop :=
  t.cause = 0#8 ∨ ∃ c ∈ causes, t.cause = causeCode c

section
variable {s : State} {causes : List Cause} {hdr : Word}

theorem faultedWithin_raiseFault {c : Cause} (hc : c ∈ causes) : FaultedWithin causes (s.raiseFault c hdr) :=
  .inr ⟨c, hc, rfl⟩

/-- A command faults by its operand check or by its own rule. -/
theorem faultedWithin_commence {check : Option Cause} {run : State → State} (hf : s.cause = 0#8)
    (hcheck : ∀ c, check = some c → c ∈ causes) (hrun : FaultedWithin causes (run s)) :
    FaultedWithin causes (s.commence hdr check run) := by
  obtain ⟨hne, -⟩ | ⟨c, -, hc, he⟩ | ⟨-, -, he⟩ := s.commence_cases hdr check run
  · exact absurd hf hne
  · exact he ▸ faultedWithin_raiseFault (hcheck c hc)
  · exact he ▸ hrun

/-- An operand check raises its one cause. -/
theorem mem_of_check {p : Prop} [Decidable p] {c : Cause} (hc : c ∈ causes) (d : Cause)
    (hd : (if p then none else some c) = some d) : d ∈ causes :=
  Option.some.inj (Option.ite_none_left_eq_some.mp hd).2 ▸ hc

end

theorem execAcc_faultedWithin {s : State} (hf : s.cause = 0#8) (off : Nat) (lo hi : Word) :
    ∃ t, execAcc off lo hi s = .next t ∧ FaultedWithin [.cvIndex, .accOverflow] t := by
  refine ⟨_, rfl, faultedWithin_commence hf (mem_of_check (by decide)) ?_⟩
  split
  · exact faultedWithin_raiseFault (by decide)
  · exact .inl hf

theorem exec_rds_faultedWithin {s : State} (hf : s.cause = 0#8) (k : Nat) :
    ∃ t, exec (.rds k) s = .next t ∧ FaultedWithin [.cvIndex] t := by
  obtain hk | hk := le_or_gt k 2
  · exact ⟨_, exec_rds_of_le hk s, .inl hf⟩
  · exact ⟨_, exec_rds_of_index hk hf, .inr ⟨.cvIndex, by decide, rfl⟩⟩

/-- Outside the fault state a command ends without a fault or with one of its own (R203). -/
theorem exec_faultedWithin {s : State} (hf : s.cause = 0#8) (i : Instr) :
    ∃ t, exec i s = .next t ∧ FaultedWithin (faultsOf i) t := by
  cases i with
  | wmul | adc | zero | muls => exact ⟨_, rfl, faultedWithin_commence hf nofun (.inl hf)⟩
  | mulf | wra | wrb | wrp | rda | rdb | rdp =>
    exact ⟨_, rfl, faultedWithin_commence hf (mem_of_check (List.mem_singleton_self _)) (.inl hf)⟩
  | acc off lo hi => exact execAcc_faultedWithin hf off lo hi
  | rds k => exact exec_rds_faultedWithin hf k

section
variable {i : Instr}

theorem cvIndex_mem_faultsOf : .cvIndex ∈ faultsOf i ↔ (∃ off lo hi, i = .acc off lo hi) ∨
    (∃ k v, i = .wra k v) ∨ (∃ k v, i = .wrb k v) ∨ (∃ k v, i = .wrp k v) ∨ (∃ k, i = .rda k) ∨ (∃ k, i = .rdb k) ∨
      (∃ k, i = .rdp k) ∨ (∃ k, i = .rds k) := by
  cases i <;> simp [faultsOf]

theorem cvWidth_mem_faultsOf : .cvWidth ∈ faultsOf i ↔ i = .mulf := by
  cases i <;> simp [faultsOf]

theorem accOverflow_mem_faultsOf : .accOverflow ∈ faultsOf i ↔ ∃ off lo hi, i = .acc off lo hi := by
  cases i <;> simp [faultsOf]

theorem illegal_notMem_faultsOf : .illegal ∉ faultsOf i := by
  cases i <;> simp [faultsOf]

theorem cvLength_notMem_faultsOf : .cvLength ∉ faultsOf i := by
  cases i <;> simp [faultsOf]

end

/-! ### The statements -/

/-- Settles O10: in the fault state the request is answered or refused before anything else is looked at; outside it
the decoder finds the header, then the data beats, and then the command runs. -/
theorem orderOfChecks : Obligations.OrderOfChecks := fun _ _ _ hr =>
  ⟨fun _ _ hd hk => step_of_readable_register hr hd hk, fun hf hd => step_of_faulted hr hf hd,
    fun hf hrow => step_of_decode_error (decode_of_no_row hrow) hr hf,
    fun hf _ hrow hlen => step_of_decode_error (decode_of_wrong_beats hrow hlen) hr hf,
    fun _ _ hd => step_of_decode_ok hr hd⟩

/-- Settles O22: the step is fault entry with some cause, and fault entry draws bank P for ACC_OVERFLOW only. -/
theorem faultEntry : Obligations.FaultEntry := by
  intro s t r rest hr hf ht hne
  obtain ⟨c, rfl⟩ := (served_of_nextRequest hr ht).eq_raiseFault hf hne
  obtain ⟨hlow, hhigh⟩ := causeCode_range c
  exact ⟨hlow, hhigh, faultHeader_eq r, State.raiseFault_sent _ c _, State.raiseFault_inbox _ c _,
    State.raiseFault_n _ c _, State.raiseFault_a _ c _, State.raiseFault_b _ c _, fun hc => State.raiseFault_p hc _⟩

/-- Settles O23: the request either reads a register or is refused, and both add a response and no more. -/
theorem faultStateIsSticky : Obligations.FaultStateIsSticky := by
  intro s t r rest hr hf ht
  by_cases hread : ∃ k, decode r = .ok (.rds k) ∧ k ≤ 2
  · obtain ⟨k, hd, hk⟩ := hread
    rw [step_of_readable_register hr hd hk, Host.Outcome.next.injEq] at ht
    exact ⟨_, ht.symm, .inl ⟨k, hd, hk, rfl⟩⟩
  · have hd : ∀ k, decode r = .ok (.rds k) → 2 < k := fun k hd => not_le.mp fun hk => hread ⟨k, hd, hk⟩
    rw [step_of_faulted hr hf hd, Host.Outcome.next.injEq] at ht
    exact ⟨_, ht.symm, .inr ⟨hd, rfl⟩⟩

/-- Settles O25: each cause is looked up in the table of R203. -/
theorem commandFaults : Obligations.CommandFaults := by
  intro i s t hf ht hne
  obtain ⟨u, hu, hfaulted⟩ := exec_faultedWithin hf i
  obtain rfl : u = t := by rwa [hu, Host.Outcome.next.injEq] at ht
  obtain h0 | ⟨c, hc, hcause⟩ := hfaulted
  · exact absurd h0 hne
  · cases c with
    | illegal => exact absurd hc illegal_notMem_faultsOf
    | cvLength => exact absurd hc cvLength_notMem_faultsOf
    | cvIndex =>
      obtain hacc | hindexed := cvIndex_mem_faultsOf.mp hc
      · exact .inl ⟨hcause, hacc⟩
      · exact .inr (.inl ⟨hcause, hindexed⟩)
    | cvWidth => exact .inr (.inr (.inl ⟨hcause, cvWidth_mem_faultsOf.mp hc⟩))
    | accOverflow => exact .inr (.inr (.inr ⟨hcause, accOverflow_mem_faultsOf.mp hc⟩))

/-- Settles O8: the decoder's answer selects the command that the step runs. -/
theorem stepRunsTheDecodedCommand : Obligations.StepRunsTheDecodedCommand := fun _ _ _ _ => step_of_decode_ok

/-- Settles O9: an empty port leaves nothing to serve. -/
theorem idleKeepsState : Obligations.IdleKeepsState := fun _ => step_of_idle

end Sys2Proof.Machine

/-! PROOFS. The statements of `70_reset_and_hazards.md`: no state is stuck (R239), and the reset input (R230, R231,
R232). -/

namespace Sys2Proof.Machine

/-- A reset is a power-on of a block of the same N, with the limbs of the next draw; what the host still sends and what it
has received are no storage of the block (log 4, log 5). -/
theorem State.resetBlock_eq_powerOn (s : State) :
    s.resetBlock = { State.powerOn s.n (Config.resetLimb s.draws) with
      inbox := s.inbox, sent := s.sent, draws := s.draws + 1 } := rfl

/-- Settles O11: an idle step and a reset answer by their rules, and a request is served whatever it holds. -/
theorem everyStepAnswers : Obligations.EveryStepAnswers := by
  intro s
  cases hi : s.inbox with
  | nil => exact ⟨s, step_of_idle hi⟩
  | cons x rest =>
    cases x with
    | reset abandoned => exact ⟨_, step_of_reset hi⟩
    | request r =>
      obtain ⟨t, ht, -⟩ := serveRequest_served r { s with inbox := rest }
      exact ⟨t, (step_of_nextRequest hi).trans ht⟩

/-- Settles O14: the content of the limbs is the reset's own draw. -/
theorem resetInput : Obligations.ResetInput := by
  intro s abandoned rest hi
  refine ⟨Config.resetLimb s.draws, s.draws + 1, ?_⟩
  rw [step_of_reset hi, State.resetBlock_eq_powerOn]

end Sys2Proof.Machine
